-- ==== Sys2Proof/Word.lean ====
section
/-! DEFINITION. The word types of the block: a fixed-point value, the accumulator, the two 66-bit
formats and the 34-bit response format (00_scope.md R5, 30_encoding.md R60). -/

namespace Sys2Proof

/-- A 32-bit pattern: a fixed-point value, an element, a count or an element index (R5: `W = 32`,
`CNT_W = 32`). -/
abbrev Word := BitVec 32

/-- A 64-bit pattern: the accumulator and the products that enter it (R5: `AW = 64`). -/
abbrev Wide := BitVec 64

/-- A format C request or a format U micro-operation, 66 bits (R60). -/
abbrev OpWord := BitVec 66

/-- A format S response, 34 bits (R60, R65). -/
abbrev RspWord := BitVec 34

end Sys2Proof
end

