-- ==== Sys2Proof/Config.lean ====
section
/-! DEFINITION. What the build fixes and what the spec leaves open: the parameters of 00_scope.md R5
that are not state. `F` and the order of the two reads of a pair have no value in the model. -/

namespace Sys2Proof

/-- The two builds the spec admits (R5, R6, D3). No other `F` can be written down (U14: refused). -/
inductive Build where
  | f15
  | f19
  deriving DecidableEq, Repr, Inhabited

/-- `F`, the number of fractional bits of a build and its narrowing shift amount (R5). -/
def Build.fracBits : Build → Nat
  | .f15 => 15
  | .f19 => 19

/-- `ACC_OVERFLOW` (R5, R128): what a sum that leaves the 64-bit range does. -/
inductive AccOverflow where
  | wrap
  | fault
  deriving DecidableEq, Repr, Inhabited

/-- `PAIR_ORDER` (R5, R51, D13): which of the two reads of one index comes first. -/
inductive PairOrder where
  | aFirst
  | bFirst
  | together
  deriving DecidableEq, Repr, Inhabited

/-- The arguments of the machine (R24: "A model takes `F` as an argument of the machine"). The pair
order may differ from pair to pair, so it is a function of the number of reads made so far. -/
structure Params where
  build       : Build
  accOverflow : AccOverflow
  pairOrder   : Nat → PairOrder

/-- The build of this instance: 15 or 19 fractional bits, the spec does not say which (R5, R6).
A FREE VALUE: no body, so every statement holds for both builds (log entry 1). -/
opaque Config.build : Build

/-- The order of the two reads of a pair, OPEN in the spec (R51, D13). A FREE VALUE: no body, so
every statement holds for every order (log entry 3). -/
opaque Config.pairOrder : Nat → PairOrder

/-- The spec's decision for the hardware: the 64-bit adder wraps (R128, D12; log entry 2). -/
def Config.accOverflow : AccOverflow := .wrap

/-- The arguments the machine of `exec` and `step` runs with. -/
def Config.params : Params where
  build       := Config.build
  accOverflow := Config.accOverflow
  pairOrder   := Config.pairOrder

end Sys2Proof
end

