-- ==== Sys2Proof/Syntax.lean ====
section
/-! DEFINITION. The five operations of the block (30_encoding.md R60, R73) as one inductive, with the
fields their formats give them. Ignored fields are kept, so that no bit of a word is dropped. -/

namespace Sys2Proof

/-- The formats that carry an operation (R60): C, a caller's request; U, a micro-operation from the
sequencer to the datapath. -/
inductive Format where
  | request
  | microOp
  deriving DecidableEq, Repr

/-- The opcode map (R73): two commands (format C) and three micro-operations (format U). -/
inductive Instr where
  /-- `MUL a, b` (R63, R111). -/
  | mul (a b : Word)
  /-- `DOT A, B, n` (R64, R121, R122): `n` the count, `x` the ignored `b` field. -/
  | dot (n x : Word)
  /-- `WMUL ua, ub` (R110). -/
  | wmul (ua ub : Word)
  /-- `WMAC ua, ub` (R120). -/
  | wmac (ua ub : Word)
  /-- `NARROW` (R100), with its two ignored fields (R66). -/
  | narrow (ua ub : Word)
  deriving DecidableEq, Repr

/-- `DOT A, B, n` as an assembler writes it: the `b` field is 0 (R64, R71). -/
def Instr.asmDot (n : Word) : Instr := .dot n 0

/-- `NARROW` as the sequencer drives it: `ua = ub = 0` (R66, R71). -/
def Instr.asmNarrow : Instr := .narrow 0 0

end Sys2Proof
end

