-- ==== Sys2Proof/WellFormed.lean ====
section
/-! DEFINITION. Which operations a format can carry, and which terms are spelled as an assembler or
the sequencer spells them (30_encoding.md R60, R64, R66, R71). -/

namespace Sys2Proof

/-- The format that carries an operation (R60, R73). -/
def Instr.format : Instr → Format
  | .mul _ _    => .request
  | .dot _ _    => .request
  | .wmul _ _   => .microOp
  | .wmac _ _   => .microOp
  | .narrow _ _ => .microOp

/-- `i` can be carried by format `f`: a caller cannot issue a micro-operation, the sequencer issues no
command (R60). -/
def Instr.carriedBy (f : Format) (i : Instr) : Bool := i.format == f

/-- The ignored fields hold what an assembler or the sequencer puts there, zero (R64, R66, R71). -/
def Instr.spelledAsAssembled : Instr → Bool
  | .dot _ x      => x == 0
  | .narrow ua ub => ua == 0 && ub == 0
  | .mul _ _      => true
  | .wmul _ _     => true
  | .wmac _ _     => true

/-- Well-formed for a format: carried by it, and spelled as assembled. -/
def Instr.wellFormed (f : Format) (i : Instr) : Bool := i.carriedBy f && i.spelledAsAssembled

end Sys2Proof
end

