-- ==== Sys2Proof/Decode.lean ====
section
/-! DEFINITION. Decoding and encoding of the two 66-bit formats (30_encoding.md R61 to R70). Both
decoders are total: every word is an operation or is rejected by name. -/

namespace Sys2Proof

/-- What a decoder answers: an operation, or the name of the encoding it rejects. -/
inductive Decoded where
  | instr (i : Instr)
  /-- A request whose `op` is reserved, `00` or `11` (R62, R68). -/
  | reservedRequest (op : BitVec 2)
  /-- The micro-operation code `00`, which the sequencer never issues (R66, R68). -/
  | microOpNeverIssued
  deriving DecidableEq, Repr

/-- `REQ[65:64]` or `UOP[65:64]`, the operation code (R61, R66). -/
def OpWord.op (w : OpWord) : BitVec 2 := w.extractLsb' 64 2

/-- `REQ[63:32]` or `UOP[63:32]`, the first operand (R61, R66). -/
def OpWord.fieldA (w : OpWord) : Word := w.extractLsb' 32 32

/-- `REQ[31:0]` or `UOP[31:0]`, the second operand (R61, R66). -/
def OpWord.fieldB (w : OpWord) : Word := w.extractLsb' 0 32

/-- A word from its three fields: `{op, a, b}` (R61, R66). -/
def OpWord.pack (op : BitVec 2) (a b : Word) : OpWord := op ++ (a ++ b)

/-- Decode a request, format C (R62, R70). -/
def decodeRequest (w : OpWord) : Decoded :=
  if OpWord.op w = 0b01#2 then .instr (.mul (OpWord.fieldA w) (OpWord.fieldB w))
  else if OpWord.op w = 0b10#2 then .instr (.dot (OpWord.fieldA w) (OpWord.fieldB w))
  else .reservedRequest (OpWord.op w)

/-- Decode a micro-operation, format U (R66). -/
def decodeUop (w : OpWord) : Decoded :=
  if OpWord.op w = 0b01#2 then .instr (.wmul (OpWord.fieldA w) (OpWord.fieldB w))
  else if OpWord.op w = 0b10#2 then .instr (.wmac (OpWord.fieldA w) (OpWord.fieldB w))
  else if OpWord.op w = 0b11#2 then .instr (.narrow (OpWord.fieldA w) (OpWord.fieldB w))
  else .microOpNeverIssued

/-- Decode a word of a known format (R60: the same code means a command in format C and a
micro-operation in format U). -/
def decodeAs : Format → OpWord → Decoded
  | .request => decodeRequest
  | .microOp => decodeUop

/-- The operation code of an instruction in its own format (R62, R66, R73). -/
def Instr.opcode : Instr → BitVec 2
  | .mul _ _    => 0b01#2
  | .dot _ _    => 0b10#2
  | .wmul _ _   => 0b01#2
  | .wmac _ _   => 0b10#2
  | .narrow _ _ => 0b11#2

/-- The word of an instruction in its own format (R61, R63, R64, R66). -/
def encode : Instr → OpWord
  | .mul a b      => OpWord.pack 0b01#2 a b
  | .dot n x      => OpWord.pack 0b10#2 n x
  | .wmul ua ub   => OpWord.pack 0b01#2 ua ub
  | .wmac ua ub   => OpWord.pack 0b10#2 ua ub
  | .narrow ua ub => OpWord.pack 0b11#2 ua ub

/-- Reading a bare word of the opcode table, whose format is not in the word (log entry 12): a caller's
request where format C names a command, else a micro-operation where format U names one. -/
def decodeUnlabelled (w : OpWord) : Decoded :=
  match decodeRequest w with
  | .instr i => .instr i
  | .reservedRequest _ => decodeUop w
  | .microOpNeverIssued => decodeUop w

/-- The operation read from the low `nbits` bits of `w`, numbered as spec/opcode_table.json numbers
them; `none` where a bit above 65 is set or no format names an operation. -/
def decodeTableWord (nbits w : Nat) : Option Instr :=
  if w % 2 ^ nbits < 2 ^ 66 then
    match decodeUnlabelled (BitVec.ofNat 66 (w % 2 ^ nbits)) with
    | .instr i => some i
    | .reservedRequest _ => none
    | .microOpNeverIssued => none
  else none

end Sys2Proof
end

