-- ==== Sys2Proof/Machine/State.lean ====
section
/-! DEFINITION. The state of one FXMAC instance and of what the world shows it (10_state.md,
20_memory.md, 70_reset_and_hazards.md), the reasons a step can stop, and the state after reset. -/

namespace Sys2Proof.Machine

/-- Why the machine stops. None of these is an error the block reports: those are responses. -/
inductive Fault where
  /-- `WMAC` or `NARROW` while `ACC` holds no value. Raised by `State.readAcc` for them. The stop the spec states:
  R27 "make `WMAC` or `NARROW` on "no value" a fault of the model", D20, U13; unreachable where the
  sequencer issues the micro-operations. Safe. -/
  | accNoValue
  /-- A sum outside the 64-bit range in the reading `ACC_OVERFLOW = fault` (R120, R128). Raised by
  `WMAC` with that parameter, which `exec` and `step` do not take. Safe. -/
  | accOverflow
  /-- The sequencer reads one of its registers `OPL`, `LA`, `LB`, `CNT`, `IDX` (R28) and it holds no
  value. Raised by `readSeq`. The stop the spec states: U13 "no value; reading is a model `fault`,
  unreachable (D20)". Safe. -/
  | sequencerNoValue
  /-- A read of an element index at or above the length of the bound sequence: there is no such element
  (R41). Raised by the reads of `DOT`; excluded by R44 while the lengths are stable (R164). Safe. -/
  | noSuchElement
  deriving DecidableEq, Repr

/-- Why a step has no meaning. -/
inductive Refusal where
  /-- An instruction whose meaning is not written yet. Raised by no arm of `exec` now. Safe. -/
  | notModelled (mnemonic : String)
  /-- The micro-operation code `00` reached the datapath (R68: "a model gives it no meaning
  (refuse)"). Raised by the fetch of a micro-operation; the sequencer never issues it. Safe. -/
  | microOpNeverIssued
  deriving DecidableEq, Repr

/-- The two operand sequence ports (R40). -/
inductive PortId where
  | pa
  | pb
  deriving DecidableEq, Repr

/-- A port and the caller's sequence bound to it (R40, R41). -/
structure Port where
  /-- `LEN`, the number of elements of the bound sequence (R41); 0 where nothing is bound. -/
  len     : Word
  /-- The elements by index: rising indices, no entry 0, an index not listed holds 0. -/
  elems   : List (Nat × Word)
  /-- Whether the port answers a read (U9, N12: a read that is never answered). -/
  answers : Bool
  /-- The indices the block has read here, oldest first: a record of the model's own (log entry 7). -/
  reads   : List Word
  deriving DecidableEq, Repr

/-- The outcome of one command, as the sum type R65 asks for: an error has no result (R29). -/
inductive Response where
  | ok (res : Word)
  | invalidArgument
  | invalidCommand
  deriving DecidableEq, Repr

/-- What the world does in a coming step (R55, R161, R163, R171; log entry 5). -/
inductive Move where
  /-- The block takes one step of its small-step program (R122). -/
  | turn
  /-- The block runs undisturbed: a whole command if it is idle (R123), else one turn. -/
  | whole
  /-- The caller presents a request (R171). -/
  | present (req : OpWord)
  /-- The caller binds a sequence of `len` elements to a port, its nonzero elements listed (R40). -/
  | bind (p : PortId) (len : Word) (elems : List (Nat × Word))
  /-- Some agent writes elements of the bound sequences, all at one moment (R55, R131). -/
  | store (writes : List (PortId × Word × Word))
  /-- A port stops or resumes answering reads (U9). -/
  | answer (p : PortId) (on : Bool)
  /-- Reset (R161). -/
  | reset
  deriving DecidableEq, Repr

/-- The state: the block's transient registers (R26 to R29), the two ports with the caller's sequences
(R40), the requests waiting and the responses delivered (R163, R170), and the world's next moves. -/
structure State where
  /-- `ACC` (R26), or no value (R27). -/
  acc       : Option Wide
  /-- `RES` (R29), or no value. -/
  res       : Option Word
  /-- `BUSY` (R28). -/
  busy      : Bool
  /-- `OPL`, the latched `op` field (R28). -/
  opl       : Option (BitVec 2)
  /-- `LA`, the latched `a` field (R28). -/
  la        : Option Word
  /-- `LB`, the latched `b` field (R28). -/
  lb        : Option Word
  /-- `CNT`, the element count of a running `DOT` (R28). -/
  cnt       : Option Word
  /-- `IDX`, the index of the next element pair of a running `DOT` (R28). -/
  idx       : Option Word
  /-- `x` of R122: the element read through `PA` and not yet consumed (log entry 8). -/
  x         : Option Word
  /-- `y` of R122: the element read through `PB` and not yet consumed (log entry 8). -/
  y         : Option Word
  /-- Read port `PA` (R40). -/
  pa        : Port
  /-- Read port `PB` (R40). -/
  pb        : Port
  /-- Requests presented and not yet accepted, oldest first (R163). They are the caller's. -/
  requests  : List OpWord
  /-- Responses delivered, oldest first: the outcome (R170). -/
  responses : List Response
  /-- What the world does next; empty when nothing but the block moves (log entry 5). -/
  moves     : List Move
  deriving DecidableEq, Repr

/-- A port with no sequence bound (log entry 6). -/
def Port.unbound : Port where
  len     := 0
  elems   := []
  answers := true
  reads   := []

/-- The state after reset (R33, R160): idle, nothing holds a value, no response pending. What is the
caller's (ports, requests, moves) is empty (log entry 6). -/
def State.reset : State where
  acc       := none
  res       := none
  busy      := false
  opl       := none
  la        := none
  lb        := none
  cnt       := none
  idx       := none
  x         := none
  y         := none
  pa        := Port.unbound
  pb        := Port.unbound
  requests  := []
  responses := []
  moves     := []

end Sys2Proof.Machine
end

