-- ==== Sys2Proof/Machine/Flags.lean ====
section
/-! DEFINITION. The block has no flags (10_state.md R23); the only status a caller sees is that of a
response (30_encoding.md R65, 60_exceptions.md R140). Status codes and the 34-bit response word. -/

namespace Sys2Proof.Machine

/-- `status`, the outcome code of a response (R65). -/
def Response.status : Response → BitVec 2
  | .ok _            => 0b00#2
  | .invalidArgument => 0b01#2
  | .invalidCommand  => 0b10#2

/-- The response as the word `RSP[33:0]` (R65). The `res` field of an error response has no value
(R29, U12), so its bits are an argument. -/
def Response.word (r : Response) (openBits : Word) : RspWord :=
  match r with
  | .ok v            => 0b00#2 ++ v
  | .invalidArgument => 0b01#2 ++ openBits
  | .invalidCommand  => 0b10#2 ++ openBits

/-- Reading a response word (R65); `status = 11` is never produced and reads as nothing (R68). -/
def decodeResponse (w : RspWord) : Option Response :=
  if w.extractLsb' 32 2 = 0b00#2 then some (.ok (w.extractLsb' 0 32))
  else if w.extractLsb' 32 2 = 0b01#2 then some .invalidArgument
  else if w.extractLsb' 32 2 = 0b10#2 then some .invalidCommand
  else none

/-- The response is a result, not an error code. -/
def Response.isOk : Response → Bool
  | .ok _            => true
  | .invalidArgument => false
  | .invalidCommand  => false

end Sys2Proof.Machine
end

