-- ==== Sys2Proof/Machine/Operands.lean ====
section
/-! DEFINITION. How operands enter an operation: whole 32-bit fields, signed for the multiplier and
unsigned for a count (30_encoding.md R67), and elements by index (20_memory.md R41). -/

namespace Sys2Proof.Machine

/-- `sext_64` (R9): sign extension of a 32-bit value. -/
def sext64 (v : Word) : Wide := v.signExtend 64

/-- The exact signed product of two 32-bit operands, widened before multiplying (R84, R110). -/
def wideProduct (ua ub : Word) : Wide := sext64 ua * sext64 ub

/-- The element listed at an index; an index not listed holds 0 (log entry 6). -/
def elemAt : List (Nat × Word) → Nat → Word
  | [], _ => 0#32
  | (k, v) :: rest, i => if k = i then v else elemAt rest i

/-- The port of a name. -/
def State.port (s : State) : PortId → Port
  | .pa => s.pa
  | .pb => s.pb

/-- `MemRead(P, i, 4)` (R41): element `i` of the bound sequence, none at or above its length. -/
def Port.elem? (p : Port) (i : Word) : Option Word :=
  if i < p.len then some (elemAt p.elems i.toNat) else none

/-- Number of reads made on both ports so far; the pair order is a function of it (log entry 3). -/
def State.readCount (s : State) : Nat := s.pa.reads.length + s.pb.reads.length

end Sys2Proof.Machine
end

