-- ==== Sys2Proof/Machine/Ops.lean ====
section
/-! DEFINITION. The named operations the meanings share: the arithmetic of the datapath, the elements
behind the ports, acceptance, and the delivery of a response or of an error. -/

namespace Sys2Proof.Machine

/-- What a step answers. -/
abbrev Result := Host.Outcome State Fault Refusal

/-- Go on from a next state; a fault or a refusal stays what it is. -/
def andThen (o : Result) (f : State → Result) : Result :=
  match o with
  | .next s    => f s
  | .fault r   => .fault r
  | .refused r => .refused r

/-! ## The constants (R25) -/

/-- `K_ZERO`, the output `ZERO = 0` (R25). -/
def kZero (_ : Build) : Word := 0#32

/-- `K_ONE`, the output `ONE = 1 << f` (R25). -/
def kOne (b : Build) : Word := 1#32 <<< b.fracBits

/-- `K_TWO`, the output `TWO = 2 << f` (R25). -/
def kTwo (b : Build) : Word := 2#32 <<< b.fracBits

/-! ## The datapath -/

/-- The narrowing converter (R100): arithmetic right shift by `F`, keep the low 32 bits. -/
def narrowed (b : Build) (acc : Wide) : Word := (acc.sshiftRight b.fracBits).setWidth 32

/-- The accumulation of R120: the sum is formed as an unbounded integer; inside the 64-bit range it is
kept, outside it is wrapped, or none in the reading `ACC_OVERFLOW = fault` (R128). -/
def accumulated (ov : AccOverflow) (acc p : Wide) : Option Wide :=
  if -(2 : Int) ^ 63 ≤ acc.toInt + p.toInt ∧ acc.toInt + p.toInt ≤ 2 ^ 63 - 1 then
    some (BitVec.ofInt 64 (acc.toInt + p.toInt))
  else
    match ov with
    | .wrap  => some (BitVec.ofInt 64 (acc.toInt + p.toInt))
    | .fault => none

/-- Read `ACC`, THE place where it may hold no value: the fault the spec asks of a model (R27: "make
`WMAC` or `NARROW` on "no value" a fault of the model"; D20, U13). -/
def State.readAcc (s : State) (f : Wide → Result) : Result :=
  match s.acc with
  | some acc => f acc
  | none     => .fault .accNoValue

/-! ## The elements behind the ports (R41) -/

/-- Write one element, keeping the list's form: rising indices, no entry 0. -/
def storeElem : List (Nat × Word) → Nat → Word → List (Nat × Word)
  | [], i, v => if v = 0#32 then [] else [(i, v)]
  | (k, u) :: rest, i, v =>
    if i < k then (if v = 0#32 then (k, u) :: rest else (i, v) :: (k, u) :: rest)
    else if i = k then (if v = 0#32 then rest else (k, v) :: rest)
    else (k, u) :: storeElem rest i v

/-- The form of a list of elements: indices rise from at least `lo`, all below `hi`, no entry 0. -/
def elemsWf (lo hi : Nat) : List (Nat × Word) → Bool
  | [] => true
  | (k, v) :: rest => decide (lo ≤ k) && decide (k < hi) && decide (v ≠ 0#32) && elemsWf (k + 1) hi rest

/-- `Memory.wf` of this hardware: the form holds and no element lies outside the sequence (R41). -/
def Port.wf (p : Port) : Bool := elemsWf 0 p.len.toNat p.elems

/-- Some agent writes element `i` (R55); outside the bound sequence there is no element to write. -/
def Port.write (p : Port) (i v : Word) : Port :=
  if i < p.len then { p with elems := storeElem p.elems i.toNat v } else p

/-- The elements of a new sequence of length `len`, from the caller's listing of them. -/
def boundElems (len : Word) : List (Nat × Word) → List (Nat × Word)
  | [] => []
  | (k, v) :: rest =>
    if k < len.toNat then storeElem (boundElems len rest) k v else boundElems len rest

/-- The caller binds another sequence (R40). -/
def Port.rebind (p : Port) (len : Word) (elems : List (Nat × Word)) : Port :=
  { p with len := len, elems := boundElems len elems }

/-- A read of element `i` has been made on this port. -/
def Port.logged (p : Port) (i : Word) : Port := { p with reads := p.reads ++ [i] }

/-- Replace a port. -/
def State.setPort (s : State) (q : PortId) (p : Port) : State :=
  match q with
  | .pa => { s with pa := p }
  | .pb => { s with pb := p }

/-- All the writes of one moment (R55); where two name one element the later in the list stands. -/
def State.storeElems (s : State) : List (PortId × Word × Word) → State
  | [] => s
  | (q, i, v) :: rest => State.storeElems (s.setPort q ((s.port q).write i v)) rest

/-! ## Named updates -/

/-- `ACC <- v`. -/
def State.withAcc (s : State) (v : Wide) : State := { s with acc := some v }

/-- `RES <- v`. -/
def State.withRes (s : State) (v : Word) : State := { s with res := some v }

/-- `IDX <- i`. -/
def State.withIdx (s : State) (i : Word) : State := { s with idx := some i }

/-- Element `i` has been read on both ports. -/
def State.loggedPair (s : State) (i : Word) : State :=
  { s with pa := s.pa.logged i, pb := s.pb.logged i }

/-- The pair read goes to the datapath and `IDX <- i` (R122). -/
def State.consumedPair (s : State) (i : Word) : State :=
  { s with idx := some i, x := none, y := none }

/-- Keep the element `v` just read at index `i` in the half of the pair it belongs to. -/
def State.latchElem (s : State) (q : PortId) (i v : Word) : State :=
  match q with
  | .pa => { s with x := some v, pa := s.pa.logged i }
  | .pb => { s with y := some v, pb := s.pb.logged i }

/-- The requests waiting are now `ws`. -/
def State.withRequests (s : State) (ws : List OpWord) : State := { s with requests := ws }

/-- The world's moves to come are now `ms`. -/
def State.withMoves (s : State) (ms : List Move) : State := { s with moves := ms }

/-! ## Commands: waiting, acceptance, response, error -/

/-- A request is presented: it waits, unaccepted, behind those already waiting (R163). -/
def State.present (s : State) (w : OpWord) : State := { s with requests := s.requests ++ [w] }

/-- The block idle: no transient element holds a value (R28, R33, R160). Also what reset does to the
block (R161): the command in flight is abandoned, what is the caller's stays. -/
def State.idle (s : State) : State :=
  { s with acc := none, res := none, busy := false, opl := none, la := none, lb := none,
           cnt := none, idx := none, x := none, y := none }

/-- Acceptance of a request (R28): its three fields are latched; `CNT` is set for a `DOT` (R122). -/
def State.accepted (s : State) (op : BitVec 2) (a b : Word) : State :=
  { s.idle with busy := true, opl := some op, la := some a, lb := some b,
                cnt := if op = 0b10#2 then some a else none }

/-- `respond` (R9, R146): hand the response over, hold nothing, be idle. -/
def State.responded (s : State) (r : Response) : State :=
  { s.idle with responses := s.responses ++ [r] }

/-- The two errors of R140. -/
inductive ErrorCode where
  | invalidArgument
  | invalidCommand
  deriving DecidableEq, Repr

/-- The response that carries an error (R140). -/
def ErrorCode.response : ErrorCode → Response
  | .invalidArgument => .invalidArgument
  | .invalidCommand  => .invalidCommand

/-- `raise E` (R146, R147), THE way an exception is taken: no further read or micro-operation, respond
with the code and no result, be idle. There is nothing to return to or restore (R148). -/
def raiseError (e : ErrorCode) (s : State) : Result := .next (s.responded e.response)

/-- The check of R121 fails: `n = 0` or `n > LEN_A` or `n > LEN_B`. -/
def State.dotInvalid (s : State) (n : Word) : Bool :=
  decide (n = 0#32) || decide (s.pa.len < n) || decide (s.pb.len < n)

end Sys2Proof.Machine
end

