-- ==== Sys2Proof/Machine/Narrow.lean ====
section
/-! DEFINITION. The meaning of `NARROW` (41_narrow.md). -/

namespace Sys2Proof.Machine

/-- `NARROW` with the machine's arguments given (R100, R103): `RES <- ACC[F+31 : F]`, `ACC` unchanged. -/
def narrowAt (p : Params) (s : State) : Result :=
  s.readAcc fun acc => .next (s.withRes (narrowed p.build acc))

/-- `NARROW ; respond OK(RES)`, the end of both commands (R72, R111, R122). -/
def narrowRespond (p : Params) (s : State) : Result :=
  s.readAcc fun acc =>
    .next ((s.withRes (narrowed p.build acc)).responded (.ok (narrowed p.build acc)))

/-- `NARROW` (R100); its two fields are ignored (R66, R68). -/
def execNarrow (_ua _ub : Word) (s : State) : Result := narrowAt Config.params s

end Sys2Proof.Machine
end

