-- ==== Sys2Proof/Machine/Mul.lean ====
section
/-! DEFINITION. The meanings of `WMUL` and `MUL` (42_mul.md). -/

namespace Sys2Proof.Machine

/-- `WMUL ua, ub` (R110): the exact product into `ACC`, whose old content is not read. -/
def execWmul (ua ub : Word) (s : State) : Result := .next (s.withAcc (wideProduct ua ub))

/-- `MUL a, b` with the machine's arguments given (R111): `WMUL a, b ; NARROW ; respond OK(RES)`, as
one step of an idle block. Presented to a busy block the request waits (R163). -/
def mulAt (p : Params) (a b : Word) (s : State) : Result :=
  if s.busy then .next (s.present (encode (.mul a b)))
  else andThen (execWmul a b (s.accepted 0b01#2 a b)) (narrowRespond p)

/-- `MUL a, b` (R111). -/
def execMul (a b : Word) (s : State) : Result := mulAt Config.params a b s

end Sys2Proof.Machine
end

