-- ==== Sys2Proof/Machine/Dot.lean ====
section
/-! DEFINITION. The meanings of `WMAC` and `DOT` (43_dot.md). -/

namespace Sys2Proof.Machine

/-- `WMAC ua, ub` with the machine's arguments given (R120). A sum outside the range faults only where
`ACC_OVERFLOW = fault` (R128). -/
def wmacAt (p : Params) (ua ub : Word) (s : State) : Result :=
  s.readAcc fun acc =>
    match accumulated p.accOverflow acc (wideProduct ua ub) with
    | some acc' => .next (s.withAcc acc')
    | none      => .fault .accOverflow

/-- `WMAC ua, ub` (R120). -/
def execWmac (ua ub : Word) (s : State) : Result := wmacAt Config.params ua ub s

/-- Read the pair of index `i`, each element once, and hand it to a micro-operation (R47, R51, R122). -/
def withPair (i : Word) (s : State) (f : Word → Word → State → Result) : Result :=
  match s.pa.elem? i, s.pb.elem? i with
  | some x, some y => f x y (s.loggedPair i)
  | _, _           => .fault .noSuchElement

/-- The loop of R122: the pairs `k` down to 1, one `WMAC` each. -/
def dotLoop (p : Params) : Nat → State → Result
  | 0, s => .next s
  | k + 1, s =>
    andThen (withPair (BitVec.ofNat 32 (k + 1)) s fun x y s1 =>
      wmacAt p x y (s1.withIdx (BitVec.ofNat 32 k))) (dotLoop p k)

/-- The computation of R122 after acceptance: `WMUL` of pair 0, the loop, `NARROW`, respond. -/
def dotRun (p : Params) (n : Word) (s : State) : Result :=
  andThen (withPair 0#32 s fun x y s1 => execWmul x y (s1.withIdx (n - 1#32))) fun s2 =>
    andThen (dotLoop p (n.toNat - 1) s2) (narrowRespond p)

/-- `DOT A, B, n` with the machine's arguments given, as one step of an idle block (R121, R122, R123).
Presented to a busy block the request waits (R163). Where a port does not answer, the command is
accepted and waits for its first read (R130, U9). -/
def dotAt (p : Params) (n x : Word) (s : State) : Result :=
  if s.busy then .next (s.present (encode (.dot n x)))
  else if s.dotInvalid n then raiseError .invalidArgument s
  else if s.pa.answers && s.pb.answers then dotRun p n (s.accepted 0b10#2 n x)
  else .next (s.accepted 0b10#2 n x)

/-- `DOT A, B, n` (R121, R122); the field `x` is ignored (R64). -/
def execDot (n x : Word) (s : State) : Result := dotAt Config.params n x s

end Sys2Proof.Machine
end

