-- ==== Sys2Proof/Machine/Sequencer.lean ====
section
/-! DEFINITION. What the next step runs: the world's moves (70_reset_and_hazards.md R161 to R164, R171),
the acceptance of a request, and the small-step program of the sequencer (43_dot.md R122). -/

namespace Sys2Proof.Machine

/-- What a step finds to do: an instruction to run at a state, or a step that runs none. -/
inductive Fetched where
  | run (i : Instr) (s : State)
  | done (o : Result)

/-- The sequencer sends a micro-operation to the datapath as a word of format U, and the datapath
decodes it (R66). -/
def issue (i : Instr) (s : State) : Fetched :=
  match decodeUop (encode i) with
  | .instr j           => .run j s
  | .reservedRequest _ => .done (.refused .microOpNeverIssued)
  | .microOpNeverIssued => .done (.refused .microOpNeverIssued)

/-- The request `w` is accepted for running in small steps (R28, R121): its fields are latched. An
erroring request is answered (R141, R142, R146) in the very step that accepts it: DESIGN CHOICE, the
spec leaves the time from acceptance to response open (R169, U15; log entry 25). -/
def accept (w : OpWord) (s : State) : Result :=
  if OpWord.op w = 0b01#2 then .next (s.accepted 0b01#2 (OpWord.fieldA w) (OpWord.fieldB w))
  else if OpWord.op w = 0b10#2 then
    if s.dotInvalid (OpWord.fieldA w) then raiseError .invalidArgument s
    else .next (s.accepted 0b10#2 (OpWord.fieldA w) (OpWord.fieldB w))
  else raiseError .invalidCommand s

/-- `MemRead` on one port (R41); a port that does not answer leaves the read waiting (R130, U9). -/
def readPort (q : PortId) (i : Word) (s : State) : Result :=
  if (s.port q).answers then
    match (s.port q).elem? i with
    | some v => .next (s.latchElem q i v)
    | none   => .fault .noSuchElement
  else .next s

/-- The two reads of the pair of index `i`, in the machine's order (R51), and then the micro-operation
that consumes the pair. -/
def pairTurn (p : Params) (i : Word) (s : State) (consume : Word → Word → Fetched) : Fetched :=
  match s.x, s.y with
  | some x, some y => consume x y
  | some _, none   => .done (readPort .pb i s)
  | none, some _   => .done (readPort .pa i s)
  | none, none     =>
    match p.pairOrder s.readCount with
    | .aFirst   => .done (readPort .pa i s)
    | .bFirst   => .done (readPort .pb i s)
    | .together => .done (andThen (readPort .pa i s) (readPort .pb i))

/-- Read a register of the sequencer (R28), THE place where one may hold no value: the fault the spec
asks of a model (U13: "no value; reading is a model `fault`, unreachable"). -/
def readSeq {α : Type} (r : Option α) (f : α → Fetched) : Fetched :=
  match r with
  | some v => f v
  | none   => .done (.fault .sequencerNoValue)

/-- One turn of a running `MUL` (R111): `WMUL` while `ACC` holds nothing, then `NARROW`. -/
def mulTurn (s : State) : Fetched :=
  match s.acc with
  | some _ => issue .asmNarrow s
  | none   => readSeq s.la fun a => readSeq s.lb fun b => issue (.wmul a b) s

/-- One turn of a running `DOT` (R122): pair 0 and `WMUL` while `ACC` holds nothing; pair `IDX` and
`WMAC` while `IDX` is at least 1; then `NARROW`. `IDX` moves with the micro-operation (log entry 15). -/
def dotTurn (p : Params) (s : State) : Fetched :=
  match s.acc with
  | none   =>
    readSeq s.cnt fun n => pairTurn p 0#32 s fun x y =>
      issue (.wmul x y) (s.consumedPair (n - 1#32))
  | some _ =>
    readSeq s.idx fun i =>
      if i = 0#32 then issue .asmNarrow s
      else pairTurn p i s fun x y =>
        issue (.wmac x y) (s.consumedPair (i - 1#32))

/-- One turn of the running command (R122): the response once `RES` holds a value, else the next read
or micro-operation. A latched code that names no command is answered as R142 says (log entry 26). -/
def commandTurn (p : Params) (s : State) : Fetched :=
  match s.res with
  | some v => .done (.next (s.responded (.ok v)))
  | none   =>
    readSeq s.opl fun c =>
      if c = 0b01#2 then mulTurn s
      else if c = 0b10#2 then dotTurn p s
      else .done (raiseError .invalidCommand s)

/-- The block moves by one small step (R122). Idle with nothing presented, it stays as it is. -/
def turn (p : Params) (s : State) : Fetched :=
  if s.busy then commandTurn p s
  else
    match s.requests with
    | []      => .done (.next s)
    | w :: ws => .done (accept w (s.withRequests ws))

/-- The block moves undisturbed: a whole command if it is idle (R123, R170), else one turn. -/
def wholeCommand (p : Params) (s : State) : Fetched :=
  if s.busy then commandTurn p s
  else
    match s.requests with
    | []      => .done (.next s)
    | w :: ws =>
      match decodeRequest w with
      | .instr i            => .run i (s.withRequests ws)
      | .reservedRequest _  => .done (raiseError .invalidCommand (s.withRequests ws))
      | .microOpNeverIssued => .done (.refused .microOpNeverIssued)

/-- One move of the world, already taken off the list. -/
def makeMove (p : Params) (m : Move) (s : State) : Fetched :=
  match m with
  | .turn             => turn p s
  | .whole            => wholeCommand p s
  | .present w        => .done (.next (s.present w))
  | .bind q len elems => .done (.next (s.setPort q ((s.port q).rebind len elems)))
  | .store writes     => .done (.next (s.storeElems writes))
  | .answer q on      => .done (.next (s.setPort q { s.port q with answers := on }))
  | .reset            => .done (.next s.idle)

/-- What the next step does, with the machine's arguments given: the world's next move, or, where it
has none, the block undisturbed. -/
def fetchAt (p : Params) (s : State) : Fetched :=
  match s.moves with
  | []      => wholeCommand p s
  | m :: ms => makeMove p m (s.withMoves ms)

/-- What the next step does. -/
def fetch (s : State) : Fetched := fetchAt Config.params s

/-- The state whose next step runs the operation of a bare word of the opcode table (log entry 12): a
request is presented first in line to the idle block; `NARROW`, which no caller can present, is put
before the block as the next micro-operation of a running `MUL` whose `WMUL` is done. -/
def placeTableWord (s : State) (w : OpWord) : State :=
  match decodeRequest w, decodeUop w with
  | .reservedRequest _, .instr _ =>
    ((s.accepted 0b01#2 0 0).withAcc (s.acc.getD 0)).withMoves (.turn :: s.moves)
  | _, _ => (s.idle.withRequests (w :: s.requests)).withMoves (.whole :: s.moves)

end Sys2Proof.Machine
end

