-- ==== Sys2Proof/Machine/AtParams.lean ====
section
/-! DEFINITION. The machine with its arguments written out (00_scope.md R5, 10_state.md R24): the same
meanings and the same fetch for any build, overflow reading and pair order. -/

namespace Sys2Proof.Machine

/-- The meaning of an instruction with the machine's arguments given. -/
def execAt (p : Params) (i : Instr) (s : State) : Result :=
  match i with
  | .mul a b    => mulAt p a b s
  | .dot n x    => dotAt p n x s
  | .wmul ua ub => execWmul ua ub s
  | .wmac ua ub => wmacAt p ua ub s
  | .narrow _ _ => narrowAt p s

/-- One step with the machine's arguments given. -/
def stepAt (p : Params) (s : State) : Result :=
  match fetchAt p s with
  | .run i s' => execAt p i s'
  | .done o   => o

/-- The machine with its arguments given. -/
def coreAt (p : Params) : Host.Core where
  State   := State
  Fault   := Fault
  Refusal := Refusal
  step    := stepAt p
  reset   := State.reset

end Sys2Proof.Machine
end

