-- ==== Sys2Proof/Machine/Dispatch.lean ====
section
/-! DEFINITION. One arm per operation of the opcode map (30_encoding.md R73). -/

namespace Sys2Proof.Machine

def exec (i : Instr) (s : State) : Host.Outcome State Fault Refusal :=
  match i with
  -- the two commands (format C)
  | .mul a b => Sys2Proof.Machine.execMul a b s
  | .dot n x => Sys2Proof.Machine.execDot n x s
  -- the three micro-operations (format U)
  | .wmul ua ub => Sys2Proof.Machine.execWmul ua ub s
  | .wmac ua ub => Sys2Proof.Machine.execWmac ua ub s
  | .narrow ua ub => Sys2Proof.Machine.execNarrow ua ub s

end Sys2Proof.Machine
end

