-- ==== Sys2Proof/Machine/Step.lean ====
section
/-! DEFINITION. One step: find what there is to do, and run the instruction found. -/

namespace Sys2Proof.Machine

/-- One step of the machine. -/
def step (s : State) : Host.Outcome State Fault Refusal :=
  match fetch s with
  | .run i s' => exec i s'
  | .done o   => o

/-- `s` with the operation of the low `nbits` bits of `w` placed where the next step takes it. -/
def State.withFetchWord (s : State) (nbits w : Nat) : State :=
  placeTableWord s (BitVec.ofNat 66 (w % 2 ^ nbits))

end Sys2Proof.Machine
end

