-- ==== Sys2Proof/Safety.lean ====
section
/-! DEFINITION. The words claims use: the spec's integer forms (R9, R86, R123), the numbers patterns
stand for (R80), what a command needs to run, the order of the reads, the micro-programs of R72, and
the invariants of the machine. -/

namespace Sys2Proof.Machine

/-! ## Integer forms -/

/-- `wrap_N` (R9): the integer of `[-2^(N-1), 2^(N-1))` congruent to `z`. -/
def wrapTo (bits : Nat) (z : Int) : Int := Int.bmod z (2 ^ bits)

/-- `floor(z / 2^F)` (R86). -/
def floorShift (b : Build) (z : Int) : Int := Int.fdiv z (2 ^ b.fracBits)

/-- Element `i` of a bound sequence as an integer. -/
def Port.elemInt (p : Port) (i : Nat) : Int := (elemAt p.elems i).toInt

/-- `Σ a[i] * b[i]` over the first `n` elements, unbounded (R123). -/
def dotSum (a b : Port) (n : Nat) : Int :=
  (Finset.range n).sum fun i => a.elemInt i * b.elemInt i

/-- The exact sum of the products accumulated once the pairs 0, `n-1`, ..., `i+1` are in (R125, R126). -/
def partialSum (a b : Port) (n i : Nat) : Int :=
  a.elemInt 0 * b.elemInt 0 + (Finset.Ico (i + 1) n).sum fun j => a.elemInt j * b.elemInt j

/-- The closed form of `MUL` (R87, R111). -/
def mulResult (b : Build) (u v : Word) : Word :=
  BitVec.ofInt 32 (wrapTo 32 (floorShift b (u.toInt * v.toInt)))

/-- The closed form of a `DOT` that passes its check, with the unbounded sum (R96, R123). -/
def dotResult (b : Build) (s : State) (n : Word) : Word :=
  BitVec.ofInt 32 (wrapTo 32 (floorShift b (dotSum s.pa s.pb n.toNat)))

/-! ## The numbers patterns stand for -/

/-- `value_F(x)` (R80). -/
def value (b : Build) (v : Word) : ℚ := (v.toInt : ℚ) / 2 ^ b.fracBits

/-- `ε = 2^-F`, the resolution (R81). -/
def resolution (b : Build) : ℚ := 1 / 2 ^ b.fracBits

/-! ## Running -/

/-- A `DOT` of count `n` presented now passes its check and its reads are answered (R121, R162). -/
def State.ReadyForDot (s : State) (n : Word) : Prop :=
  s.busy = false ∧ n ≠ 0#32 ∧ n ≤ s.pa.len ∧ n ≤ s.pb.len ∧ s.pa.answers = true ∧ s.pb.answers = true

/-- The request `w`, taken now, errs with the response `e` (R140, R141, R142). -/
def State.RequestErrs (s : State) (w : OpWord) (e : Response) : Prop :=
  ((∃ op, decodeRequest w = .reservedRequest op) ∧ e = .invalidCommand) ∨
  ((∃ n x, decodeRequest w = .instr (.dot n x) ∧ (n = 0#32 ∨ s.pa.len < n ∨ s.pb.len < n)) ∧
    e = .invalidArgument)

/-- The indices a `DOT` of count `n` reads on each port, in order: 0, `n-1`, ..., 1 (R51). -/
def readOrder (n : Nat) : List Word :=
  0#32 :: ((List.range (n - 1)).map fun k => BitVec.ofNat 32 (k + 1)).reverse

/-- The state with the world's next move taken off the list. -/
def State.popMove (s : State) : State := s.withMoves s.moves.tail

/-- Both ports as they are after `DOT` has read its pairs; nothing else about them changes. -/
def State.withReads (s : State) (order : List Word) : State :=
  { s with pa := { s.pa with reads := s.pa.reads ++ order },
           pb := { s.pb with reads := s.pb.reads ++ order } }

/-- The micro-program of a `MUL` (R72). -/
def mulProgram (a b : Word) : List Instr := [.wmul a b, .asmNarrow]

/-- The micro-program of a `DOT` of count `n` over the bound sequences (R72): one `WMUL`, `n - 1`
`WMAC` of the pairs `n-1` down to 1, one `NARROW`. -/
def dotProgram (a b : Port) (n : Nat) : List Instr :=
  .wmul (elemAt a.elems 0) (elemAt b.elems 0) ::
    (((List.range (n - 1)).map fun k => Instr.wmac (elemAt a.elems (k + 1)) (elemAt b.elems (k + 1))).reverse
      ++ [.asmNarrow])

/-- Run a list of operations one after another. -/
def execAll : List Instr → State → Host.Outcome State Fault Refusal
  | [], s => .next s
  | i :: is, s => andThen (exec i s) (execAll is)

/-- `k` steps of the machine behind the host's interface, stopping at the first fault or refusal. -/
def runSteps (k : Nat) (s : State) : Host.Outcome State Fault Refusal := Host.Core.run Sys2Proof.core k s

/-- No command of the run ended in an error (R148: the premise a caller's claim takes). -/
def State.NoErrorResponse (s : State) : Prop := ∀ r ∈ s.responses, r.isOk = true

/-! ## Invariants -/

/-- No transient element holds a value (R28, R33). -/
def State.HoldsNothing (s : State) : Prop :=
  s.acc = none ∧ s.res = none ∧ s.opl = none ∧ s.la = none ∧ s.lb = none ∧ s.cnt = none ∧
    s.idx = none ∧ s.x = none ∧ s.y = none

/-- A `MUL` is running (R28, R111). -/
def State.MulRunning (s : State) : Prop :=
  s.opl = some 0b01#2 ∧ s.la.isSome ∧ s.lb.isSome ∧ s.cnt = none ∧ s.idx = none ∧ s.x = none ∧
    s.y = none ∧ (s.acc = none → s.res = none)

/-- A `DOT` of count `n` is running (R28, R122): before its `WMUL` there is neither index nor result;
after it the index is below `n`, no pair is read at index 0, and no result is there before. -/
def State.DotRunning (s : State) (n : Word) : Prop :=
  s.opl = some 0b10#2 ∧ s.la = some n ∧ s.lb.isSome ∧ s.cnt = some n ∧ n ≠ 0#32 ∧
    ((s.acc = none ∧ s.idx = none ∧ s.res = none) ∨
      (s.acc.isSome ∧ ∃ i, s.idx = some i ∧ i < n ∧ (i = 0#32 → s.x = none ∧ s.y = none) ∧
        (i ≠ 0#32 → s.res = none)))

/-- The invariant of the machine: the elements keep their form, an idle block holds nothing (R28), and a
busy block is somewhere inside one of its two programs. -/
def State.Inv (s : State) : Prop :=
  s.pa.wf = true ∧ s.pb.wf = true ∧ (s.busy = false → s.HoldsNothing) ∧
    (s.busy = true → s.MulRunning ∨ ∃ n, s.DotRunning n)

/-- The count of a running `DOT` lies within both bound sequences (R44, R121). -/
def State.InBounds (s : State) : Prop :=
  ∀ n, s.cnt = some n → n ≤ s.pa.len ∧ n ≤ s.pb.len

/-- The next move binds no other sequence (R164: bindings and lengths do not change). -/
def State.KeepsBindings (s : State) : Prop :=
  ∀ q len elems ms, s.moves ≠ .bind q len elems :: ms

/-- The next move changes no element (R164: operand stability). -/
def State.KeepsElements (s : State) : Prop :=
  s.KeepsBindings ∧ ∀ writes ms, s.moves ≠ .store writes :: ms

/-- Nothing but the block moves in the next step. -/
def State.BlockMoves (s : State) : Prop :=
  s.moves = [] ∨ ∃ ms, s.moves = .turn :: ms ∨ s.moves = .whole :: ms

/-- What `ACC` and the pair being read hold during a `DOT` (R125): `wrap_64` of the exact sum of the
products accumulated so far, and elements of the index in work. -/
def State.AccHoldsSum (s : State) : Prop :=
  ∀ n, s.opl = some 0b10#2 → s.cnt = some n →
    (s.acc = none →
      (∀ v, s.x = some v → v = elemAt s.pa.elems 0) ∧ (∀ v, s.y = some v → v = elemAt s.pb.elems 0)) ∧
    (∀ acc i, s.acc = some acc → s.idx = some i →
      acc.toInt = wrapTo 64 (partialSum s.pa s.pb n.toNat i.toNat) ∧
      (∀ v, s.x = some v → v = elemAt s.pa.elems i.toNat) ∧
      (∀ v, s.y = some v → v = elemAt s.pb.elems i.toNat))

end Sys2Proof.Machine
end

