-- ==== Sys2Proof/Certificates/Slice0/Obligations.lean ====
section
/-! DEFINITION. The statements for the provers. Each docstring says which sentence of the spec it
formalises, or which rules it rests on. `Config.build` is opaque, so a statement holds for both builds. -/

open Sys2Proof Sys2Proof.Machine

/-! ## Encoding -/

/-- R70: "Decoding a request is total: for every 66-bit pattern exactly one of three things holds". Every
word is one code and two operands (R61), and the code alone selects the operation (R62). -/
def Obligations.RequestDecodingIsTotal : Prop :=
  (∀ w : OpWord, ∃ (op : BitVec 2) (a b : Word), w = op ++ (a ++ b)) ∧
  ∀ (op : BitVec 2) (a b : Word),
    decodeRequest (op ++ (a ++ b)) =
      if op = 0b01#2 then .instr (.mul a b)
      else if op = 0b10#2 then .instr (.dot a b)
      else .reservedRequest op

/-- R66 and R68: the code of a micro-operation selects it, and the code `00` has no meaning. -/
def Obligations.MicroOpDecodingFollowsTheCode : Prop :=
  ∀ a b : Word,
    decodeUop (0b00#2 ++ (a ++ b)) = .microOpNeverIssued ∧
    decodeUop (0b01#2 ++ (a ++ b)) = .instr (.wmul a b) ∧
    decodeUop (0b10#2 ++ (a ++ b)) = .instr (.wmac a b) ∧
    decodeUop (0b11#2 ++ (a ++ b)) = .instr (.narrow a b)

/-- Decode and encode agree: every operation, with every operand, is read back from its word (R61, R63,
R64, R66). -/
def Obligations.EncodeThenDecodeIsIdentity : Prop :=
  ∀ i : Instr, decodeAs i.format (encode i) = .instr i

/-- The other direction: a word that decodes is the word of what it decodes to, in that format; no bit
is dropped, the ignored ones included (R61, R66). -/
def Obligations.DecodeThenEncodeIsIdentity : Prop :=
  ∀ (f : Format) (w : OpWord) (i : Instr), decodeAs f w = .instr i → encode i = w ∧ i.format = f

/-- Words written out from the spec's tables (95_test_vectors.md W1, W4, W9, V7, V24, V37 to V39). -/
def Obligations.WrittenWordsDecode : Prop :=
  decodeRequest 0x1FFFFFFFD00004000#66 = .instr (.mul 0xFFFFFFFD#32 0x00004000#32) ∧
  decodeRequest 0x20000000300000000#66 = .instr (.asmDot 3#32) ∧
  decodeRequest 0x200000002DEADBEEF#66 = .instr (.dot 2#32 0xDEADBEEF#32) ∧
  decodeRequest 0x00000800000010000#66 = .reservedRequest 0b00#2 ∧
  decodeRequest 0x30000000100000000#66 = .reservedRequest 0b11#2 ∧
  decodeUop 0x1FFFFFFFD00004000#66 = .instr (.wmul 0xFFFFFFFD#32 0x00004000#32) ∧
  decodeUop 0x20000400000000001#66 = .instr (.wmac 0x00004000#32 0x00000001#32) ∧
  decodeUop 0x30000000000000000#66 = .instr .asmNarrow

/-- R65: the response word carries the status code and, for `OK`, the result; whatever the open bits of an
error response are, the response is read back, and `status = 11` is never produced. -/
def Obligations.ResponseWordsReadBack : Prop :=
  (∀ (r : Response) (openBits : Word),
    decodeResponse (r.word openBits) = some r ∧
    (r.word openBits).extractLsb' 32 2 = r.status ∧ r.status ≠ 0b11#2) ∧
  ∀ v openBits : Word, ((Response.ok v).word openBits).extractLsb' 0 32 = v

/-! ## A step runs the decoded instruction -/

/-- An idle block that moves undisturbed takes the first request presented and runs the command it
decodes to (R70, R123, R170). The request leaves the waiting ones, the move leaves the list. The list of
moves and the whole command as one step are the model's choices (log entries 4 and 5). -/
def Obligations.StepRunsThePresentedCommand : Prop :=
  ∀ (s : State) (w : OpWord) (ws : List OpWord) (i : Instr),
    s.busy = false → (s.moves = [] ∨ ∃ ms, s.moves = .whole :: ms) → s.requests = w :: ws →
    decodeRequest w = .instr i →
    step s = exec i { s.popMove with requests := ws }

/-- A busy block that moves runs the micro-operation its small-step program has reached (R111, R122):
`WMUL` of the operands or of pair 0, `WMAC` of the pair read, or `NARROW`. That `IDX` moves and the pair is
given up in the same step is the model's choice (log entries 5, 8 and 15). -/
def Obligations.StepRunsTheIssuedMicroOp : Prop :=
  ∀ s : State, s.busy = true → s.res = none → s.BlockMoves →
    (∀ a b, s.opl = some 0b01#2 → s.acc = none → s.la = some a → s.lb = some b →
      step s = exec (.wmul a b) s.popMove) ∧
    (∀ acc, s.opl = some 0b01#2 → s.acc = some acc → step s = exec .asmNarrow s.popMove) ∧
    (∀ n x y, s.opl = some 0b10#2 → s.acc = none → s.cnt = some n → s.x = some x → s.y = some y →
      step s = exec (.wmul x y) { s.popMove with idx := some (n - 1#32), x := none, y := none }) ∧
    (∀ acc i x y, s.opl = some 0b10#2 → s.acc = some acc → s.idx = some i → i ≠ 0#32 →
      s.x = some x → s.y = some y →
      step s = exec (.wmac x y) { s.popMove with idx := some (i - 1#32), x := none, y := none }) ∧
    (∀ acc, s.opl = some 0b10#2 → s.acc = some acc → s.idx = some 0#32 →
      step s = exec .asmNarrow s.popMove)

/-- An idle block with nothing presented stays as it is when it is its turn (R20, R33); that this is a step
is the model's choice (log entries 5 and 13). -/
def Obligations.IdleBlockWithoutRequestStays : Prop :=
  ∀ s : State, s.busy = false → s.requests = [] → s.BlockMoves → step s = .next s.popMove

/-! ## NARROW -/

/-- R86: "`narrow_F(acc) = wrap_32(floor(signed_64(acc) / 2^F))`, which as bits is `acc[F+31 : F]`", for
every one of the 2^64 values `ACC` can hold and whatever the ignored fields are; nothing but `RES` changes. -/
def Obligations.NarrowIsFloorThenWrap : Prop :=
  ∀ (s : State) (acc : Wide) (ua ub : Word), s.acc = some acc →
    exec (.narrow ua ub) s =
      .next { s with res := some (acc.extractLsb' Config.build.fracBits 32) } ∧
    (acc.extractLsb' Config.build.fracBits 32).toInt = wrapTo 32 (floorShift Config.build acc.toInt)

/-- R101: where the result does not wrap, it is exact if the discarded bits are all zero and the next
value below otherwise, for either sign; a value from `-2^F + 1` to -1 narrows to -1, one from 0 to
`2^F - 1` to 0. -/
def Obligations.NarrowRoundsTowardNegativeInfinity : Prop :=
  ∀ (s : State) (acc : Wide) (ua ub : Word), s.acc = some acc →
    ∃ r : Word, exec (.narrow ua ub) s = .next { s with res := some r } ∧
      (-(2 : Int) ^ (31 + Config.build.fracBits) ≤ acc.toInt →
        acc.toInt < 2 ^ (31 + Config.build.fracBits) →
        ((2 : Int) ^ Config.build.fracBits ∣ acc.toInt → r.toInt * 2 ^ Config.build.fracBits = acc.toInt) ∧
        (¬ (2 : Int) ^ Config.build.fracBits ∣ acc.toInt →
          r.toInt * 2 ^ Config.build.fracBits < acc.toInt ∧
          acc.toInt < (r.toInt + 1) * 2 ^ Config.build.fracBits)) ∧
      (-(2 : Int) ^ Config.build.fracBits + 1 ≤ acc.toInt → acc.toInt ≤ -1 → r = 0xFFFFFFFF#32) ∧
      (0 ≤ acc.toInt → acc.toInt ≤ 2 ^ Config.build.fracBits - 1 → r = 0#32)

/-- R102: the result is correct as a number exactly when the discarded high bits all equal `ACC[F+31]`,
that is when `-2^(31+F) <= ACC < 2^(31+F)`; otherwise it is off by a nonzero multiple of `2^32`. With
`F = 15`, `2^46` narrows to `0x80000000`. -/
def Obligations.NarrowWrapsSilently : Prop :=
  (∀ (s : State) (acc : Wide) (ua ub : Word), s.acc = some acc →
    ∃ r : Word, exec (.narrow ua ub) s = .next { s with res := some r } ∧
      (r.toInt = floorShift Config.build acc.toInt ↔
        ∀ k, Config.build.fracBits + 32 ≤ k → k < 64 →
          acc.getLsbD k = acc.getLsbD (Config.build.fracBits + 31)) ∧
      (r.toInt = floorShift Config.build acc.toInt ↔
        -(2 : Int) ^ (31 + Config.build.fracBits) ≤ acc.toInt ∧
          acc.toInt < 2 ^ (31 + Config.build.fracBits)) ∧
      ∃ k : Int, r.toInt = floorShift Config.build acc.toInt + k * 2 ^ 32) ∧
  ∀ (p : Params) (s : State), p.build = .f15 → s.acc = some 0x0000400000000000#64 →
    narrowAt p s = .next { s with res := some 0x80000000#32 }

/-- R27: `WMAC` or `NARROW` on no value is a fault of the model. -/
def Obligations.ReadingAbsentAccFaults : Prop :=
  ∀ (s : State) (ua ub : Word), s.acc = none →
    exec (.wmac ua ub) s = .fault .accNoValue ∧ exec (.narrow ua ub) s = .fault .accNoValue

/-! ## WMUL and WMAC -/

/-- R110: `ACC` takes the exact product, which lies in `-(2^62 - 2^31) .. 2^62`, whatever it held; nothing
else changes; the operation is commutative and a zero operand gives zero. -/
def Obligations.WmulWritesTheExactProduct : Prop :=
  ∀ (s : State) (ua ub : Word), ∃ p : Wide,
    exec (.wmul ua ub) s = .next { s with acc := some p } ∧
    p.toInt = ua.toInt * ub.toInt ∧ -((2 : Int) ^ 62 - 2 ^ 31) ≤ p.toInt ∧ p.toInt ≤ 2 ^ 62 ∧
    exec (.wmul ub ua) s = .next { s with acc := some p } ∧
    (ua = 0#32 ∨ ub = 0#32 → p = 0#64)

/-- R84: the product always fits, `-(2^62 - 2^31) <= a * b <= 2^62`, both ends are reached, and the number
it stands for is the product of the numbers. -/
def Obligations.ProductsAreExactAndFit : Prop :=
  (∀ (s : State) (a b : Word), ∃ p : Wide, exec (.wmul a b) s = .next { s with acc := some p } ∧
    p.toInt = a.toInt * b.toInt ∧ -((2 : Int) ^ 62 - 2 ^ 31) ≤ p.toInt ∧ p.toInt ≤ 2 ^ 62 ∧
    value Config.build a * value Config.build b = (p.toInt : ℚ) / 2 ^ (2 * Config.build.fracBits)) ∧
  ∀ s : State,
    exec (.wmul 0x80000000#32 0x80000000#32) s = .next { s with acc := some 0x4000000000000000#64 } ∧
    exec (.wmul 0x80000000#32 0x7FFFFFFF#32) s = .next { s with acc := some 0xC000000080000000#64 }

/-- R120: `ACC` takes `wrap_64` of the sum with the exact product, the true sum where it lies in range;
nothing else changes. It is what `WMUL` into a scratch register and a 64-bit add give. -/
def Obligations.WmacAddsTheExactProduct : Prop :=
  ∀ (s : State) (acc : Wide) (ua ub : Word), s.acc = some acc →
    ∃ (p t : Wide), exec (.wmul ua ub) s = .next { s with acc := some p } ∧
      exec (.wmac ua ub) s = .next { s with acc := some t } ∧
      t.toInt = wrapTo 64 (acc.toInt + ua.toInt * ub.toInt) ∧
      (-(2 : Int) ^ 63 ≤ acc.toInt + ua.toInt * ub.toInt →
        acc.toInt + ua.toInt * ub.toInt ≤ 2 ^ 63 - 1 → t.toInt = acc.toInt + ua.toInt * ub.toInt) ∧
      t = acc + p ∧ exec (.wmac ub ua) s = .next { s with acc := some t } ∧
      (ua = 0#32 ∨ ub = 0#32 → t = acc)

/-- R128: in the reading `ACC_OVERFLOW = fault` a `WMAC` faults exactly when the true sum leaves the 64-bit
range, and otherwise does what the wrapping adder does. -/
def Obligations.OverflowReadingsOfWmac : Prop :=
  ∀ (p q : Params) (s : State) (acc : Wide) (ua ub : Word),
    p.accOverflow = .fault → q.accOverflow = .wrap → s.acc = some acc →
    (acc.toInt + ua.toInt * ub.toInt < -(2 : Int) ^ 63 ∨
        (2 : Int) ^ 63 - 1 < acc.toInt + ua.toInt * ub.toInt →
      wmacAt p ua ub s = .fault .accOverflow) ∧
    (-(2 : Int) ^ 63 ≤ acc.toInt + ua.toInt * ub.toInt →
      acc.toInt + ua.toInt * ub.toInt ≤ 2 ^ 63 - 1 → wmacAt p ua ub s = wmacAt q ua ub s) ∧
    exec (.wmac ua ub) s = wmacAt q ua ub s

/-- R128, the spec's smallest overflowing case: two pairs of `0x80000000`. The adder wraps and the response
is `OK(0)` for both `F`; in the reading `ACC_OVERFLOW = fault` the command faults. -/
def Obligations.TwoExtremePairsOverflow : Prop :=
  ∀ (s : State) (x : Word), s.ReadyForDot 2#32 →
    (∀ i, i < 2 → elemAt s.pa.elems i = 0x80000000#32 ∧ elemAt s.pb.elems i = 0x80000000#32) →
    exec (.wmac 0x80000000#32 0x80000000#32) (s.withAcc 0x4000000000000000#64) =
      .next (s.withAcc 0x8000000000000000#64) ∧
    (∃ t, exec (.dot 2#32 x) s = .next t ∧ t.responses = s.responses ++ [.ok 0#32]) ∧
    ∀ p : Params, p.accOverflow = .fault → dotAt p 2#32 x s = .fault .accOverflow

/-- R85: with `Σ |a[i] * b[i]| <= 2^63 - 1` no sum leaves the range in any order, so a `DOT` gives the same
response in both readings of `ACC_OVERFLOW`. The record of the reads is the model's own (log entry 7). -/
def Obligations.SmallSumsNeverOverflow : Prop :=
  ∀ (p q : Params) (s : State) (n x : Word), p.accOverflow = .fault → q.accOverflow = .wrap →
    q.build = p.build → s.ReadyForDot n →
    ((Finset.range n.toNat).sum fun i => |s.pa.elemInt i * s.pb.elemInt i|) ≤ 2 ^ 63 - 1 →
    dotAt p n x s =
      .next ((s.withReads (readOrder n.toNat)).responded (.ok (dotResult p.build s n))) ∧
    dotAt q n x s = dotAt p n x s

/-! ## MUL -/

/-- R111: every `MUL` request taken by an idle block ends in `OK` with
`wrap_32(floor(a * b / 2^F))`, as bits `P[F+31 : F]` of the exact product; no port is used, nothing is kept. -/
def Obligations.MulDeliversItsClosedForm : Prop :=
  ∀ (s : State) (a b : Word), s.busy = false →
    exec (.mul a b) s = .next (s.responded (.ok (mulResult Config.build a b))) ∧
    ∀ p : Wide, p.toInt = a.toInt * b.toInt →
      mulResult Config.build a b = p.extractLsb' Config.build.fracBits 32

/-- R72: the two commands are their micro-programs. Run from the accepted request, the program leaves in
`RES` the result the command responds with; a `DOT` runs `n + 1` micro-operations, `n - 1` of them `WMAC`
(R129). -/
def Obligations.CommandsAreTheirMicroPrograms : Prop :=
  (∀ (s : State) (a b : Word), s.busy = false →
    ∃ (t : State) (v : Word), execAll (mulProgram a b) (s.accepted 0b01#2 a b) = .next t ∧
      t.res = some v ∧ exec (.mul a b) s = .next (s.responded (.ok v))) ∧
  ∀ (s : State) (n x : Word), s.ReadyForDot n →
    (∃ (t : State) (v : Word),
      execAll (dotProgram s.pa s.pb n.toNat) (s.accepted 0b10#2 n x) = .next t ∧ t.res = some v ∧
      exec (.dot n x) s = .next ((s.withReads (readOrder n.toNat)).responded (.ok v))) ∧
    (dotProgram s.pa s.pb n.toNat).length = n.toNat + 1 ∧
    ((dotProgram s.pa s.pb n.toNat).filter fun i => encode i >>> 64 = 2#66).length = n.toNat - 1

/-- R87: where the result does not wrap, the number returned is the greatest multiple of `2^-F` not above
the product of the numbers, below it by less than one unit in the last place. -/
def Obligations.MulErrorIsOneSided : Prop :=
  ∀ (s : State) (a b : Word), s.busy = false →
    ∃ r : Word, exec (.mul a b) s = .next (s.responded (.ok r)) ∧
      r.toInt = wrapTo 32 (floorShift Config.build (a.toInt * b.toInt)) ∧
      (-(2 : Int) ^ (31 + Config.build.fracBits) ≤ a.toInt * b.toInt →
        a.toInt * b.toInt < 2 ^ (31 + Config.build.fracBits) →
        0 ≤ value Config.build a * value Config.build b - value Config.build r ∧
        value Config.build a * value Config.build b - value Config.build r < resolution Config.build ∧
        ∀ k : Int, (k : ℚ) * resolution Config.build ≤ value Config.build a * value Config.build b →
          (k : ℚ) * resolution Config.build ≤ value Config.build r)

/-- R88: `MUL(a, b)` is free of wraparound exactly when `-2^(31+F) <= a * b < 2^(31+F)`, that is when the
floor lies in the 32-bit range, in numbers when the floor-rounded product is representable; a wrap changes
nothing but the result. -/
def Obligations.MulWrapsOnlyOutOfRange : Prop :=
  ∀ (s : State) (a b : Word), s.busy = false →
    ∃ r : Word, exec (.mul a b) s = .next (s.responded (.ok r)) ∧
      (r.toInt = floorShift Config.build (a.toInt * b.toInt) ↔
        -(2 : Int) ^ (31 + Config.build.fracBits) ≤ a.toInt * b.toInt ∧
          a.toInt * b.toInt < 2 ^ (31 + Config.build.fracBits)) ∧
      (r.toInt = floorShift Config.build (a.toInt * b.toInt) ↔
        -(2 : Int) ^ 31 ≤ floorShift Config.build (a.toInt * b.toInt) ∧
          floorShift Config.build (a.toInt * b.toInt) ≤ 2 ^ 31 - 1) ∧
      (r.toInt = floorShift Config.build (a.toInt * b.toInt) ↔
        -(2 : ℚ) ^ (31 - Config.build.fracBits) ≤
            (floorShift Config.build (a.toInt * b.toInt) : ℚ) * resolution Config.build ∧
          (floorShift Config.build (a.toInt * b.toInt) : ℚ) * resolution Config.build ≤
            2 ^ (31 - Config.build.fracBits) - resolution Config.build)

/-- R89: the sign table, with `h = 2^(F-1)`. -/
def Obligations.MulFollowsTheSignTable : Prop :=
  ∀ s : State, s.busy = false →
    let h : Word := 1#32 <<< (Config.build.fracBits - 1)
    exec (.mul 3#32 h) s = .next (s.responded (.ok 1#32)) ∧
    exec (.mul (-3#32) h) s = .next (s.responded (.ok (-2#32))) ∧
    exec (.mul 3#32 (-h)) s = .next (s.responded (.ok (-2#32))) ∧
    exec (.mul (-3#32) (-h)) s = .next (s.responded (.ok 1#32)) ∧
    exec (.mul 1#32 1#32) s = .next (s.responded (.ok 0#32)) ∧
    exec (.mul (-1#32) 1#32) s = .next (s.responded (.ok (-1#32))) ∧
    exec (.mul (-1#32) (-1#32)) s = .next (s.responded (.ok 0#32)) ∧
    ∀ a : Word, exec (.mul 0#32 a) s = .next (s.responded (.ok 0#32)) ∧
      exec (.mul a 0#32) s = .next (s.responded (.ok 0#32))

/-- R90: `MUL(a, ONE) = a` for EVERY 32-bit `a`, and the laws of `ONE`, `ZERO`, `TWO` and `-ONE`, which is
`a` itself for `a = 0x80000000`. -/
def Obligations.MulByTheConstants : Prop :=
  ∀ (s : State) (a : Word), s.busy = false →
    exec (.mul a (kOne Config.build)) s = .next (s.responded (.ok a)) ∧
    exec (.mul (kOne Config.build) a) s = .next (s.responded (.ok a)) ∧
    exec (.mul a (kZero Config.build)) s = .next (s.responded (.ok 0#32)) ∧
    exec (.mul a (kTwo Config.build)) s =
      .next (s.responded (.ok (BitVec.ofInt 32 (wrapTo 32 (2 * a.toInt))))) ∧
    exec (.mul a (-kOne Config.build)) s =
      .next (s.responded (.ok (BitVec.ofInt 32 (wrapTo 32 (-a.toInt))))) ∧
    (a = 0x80000000#32 → exec (.mul a (-kOne Config.build)) s = .next (s.responded (.ok a)))

/-- R92: "`mul(ONE, TWO) == TWO` and `mul(TWO, TWO) == 4 << f`". -/
def Obligations.LiteralScaling : Prop :=
  ∀ s : State, s.busy = false →
    exec (.mul (kOne Config.build) (kTwo Config.build)) s =
      .next (s.responded (.ok (kTwo Config.build))) ∧
    exec (.mul (kTwo Config.build) (kTwo Config.build)) s =
      .next (s.responded (.ok (4#32 <<< Config.build.fracBits))) ∧
    ∀ p : Params, p.build = .f15 →
      mulAt p 0x00008000#32 0x00010000#32 s = .next (s.responded (.ok 0x00010000#32))

/-- R91: "`mul(a,b) == mul(b,a)`" for every pair, and the multiply is not associative: the spec's example
with `F = 15`. -/
def Obligations.MulCommutesAndDoesNotAssociate : Prop :=
  (∀ (s : State) (a b : Word), s.busy = false → ∃ r : Word,
    exec (.mul a b) s = .next (s.responded (.ok r)) ∧
    exec (.mul b a) s = .next (s.responded (.ok r))) ∧
  ∀ (p : Params) (s : State), p.build = .f15 → s.busy = false →
    mulAt p 1#32 0x4000#32 s = .next (s.responded (.ok 0#32)) ∧
    mulAt p 0#32 0x10000#32 s = .next (s.responded (.ok 0#32)) ∧
    mulAt p 0x4000#32 0x10000#32 s = .next (s.responded (.ok 0x8000#32)) ∧
    mulAt p 1#32 0x8000#32 s = .next (s.responded (.ok 1#32))

/-- R69: the same request gives different results on the two builds (95_test_vectors.md P4, command 1). -/
def Obligations.BuildsReadTheSameWordDifferently : Prop :=
  ∀ (p q : Params) (s : State), p.build = .f15 → q.build = .f19 → s.busy = false →
    mulAt p 0x00800000#32 0x00800000#32 s = .next (s.responded (.ok 0x80000000#32)) ∧
    mulAt q 0x00800000#32 0x00800000#32 s = .next (s.responded (.ok 0x08000000#32))

/-! ## DOT -/

/-- R121 (the spec's decisions D10 and D11): on acceptance, `n = 0` or `n > LEN_A` or `n > LEN_B` ends in `InvalidArgument`, before any read and
any micro-operation. -/
def Obligations.DotChecksItsArgument : Prop :=
  ∀ (s : State) (n x : Word), s.busy = false →
    (n = 0#32 ∨ s.pa.len < n ∨ s.pb.len < n) →
    exec (.dot n x) s = .next (s.responded .invalidArgument) ∧
    Response.invalidArgument.status = 0b01#2

/-- R123: the response is `wrap_32(floor(Σ a[i] * b[i] / 2^F))` of the unbounded sum, whatever the 64-bit
accumulator overflowed on the way (R96). The reads of R51 are made; nothing else changes. The record of
the reads is the model's own (log entry 7), the whole command as one step log entry 4. -/
def Obligations.DotDeliversItsClosedForm : Prop :=
  ∀ (s : State) (n x : Word), s.ReadyForDot n →
    exec (.dot n x) s =
      .next ((s.withReads (readOrder n.toNat)).responded (.ok (dotResult Config.build s n))) ∧
    dotResult Config.build s n =
      BitVec.ofInt 32 (floorShift Config.build (wrapTo 64 (dotSum s.pa s.pb n.toNat)))

/-- R47 and R51: a successful `DOT` reads on each port each of the first `n` elements exactly once, in the
order 0, `n-1`, ..., 1, and no other element. The record that says so is the model's own (log entry 7). -/
def Obligations.DotReadsEachElementOnce : Prop :=
  ∀ (s : State) (n x : Word), s.ReadyForDot n →
    ∃ (t : State) (order : List Word), exec (.dot n x) s = .next t ∧
      t.pa.reads = s.pa.reads ++ order ∧ t.pb.reads = s.pb.reads ++ order ∧
      order.Nodup ∧ (∀ i, i ∈ order ↔ i < n) ∧ order.length = n.toNat ∧
      order.head? = some 0#32 ∧ ∀ k i, order[k + 1]? = some i → i.toNat = n.toNat - 1 - k

/-- R64: the `b` field of a `DOT` is "unused, ignored by the block, any value". -/
def Obligations.DotIgnoresItsBField : Prop :=
  ∀ (s : State) (n x x' : Word), s.busy = false → s.pa.answers = true → s.pb.answers = true →
    exec (.dot n x) s = exec (.dot n x') s

/-- Where a port answers no read, a `DOT` that passes its check is accepted and waits: busy, nothing read,
no response (93 U9, R130, R170). That acceptance is then a step of its own is the model's choice (log
entries 4 and 9). -/
def Obligations.DotWaitsForASilentPort : Prop :=
  ∀ (s : State) (n x : Word), s.busy = false → n ≠ 0#32 → n ≤ s.pa.len → n ≤ s.pb.len →
    (s.pa.answers = false ∨ s.pb.answers = false) →
    ∃ t, exec (.dot n x) s = .next t ∧ t.DotRunning n ∧ t.busy = true ∧ t.acc = none ∧ t.x = none ∧
      t.y = none ∧ t.pa = s.pa ∧ t.pb = s.pb ∧ t.requests = s.requests ∧ t.responses = s.responses ∧
      t.moves = s.moves

/-- R93: "`dot([a], [b], 1) == mul(a, b)` for all scalar `a, b`": the two responses are one, and with
`n = 1` the expansion of the `DOT` is that of the `MUL`. -/
def Obligations.DotOfOneIsMul : Prop :=
  ∀ (s : State) (x : Word), s.ReadyForDot 1#32 →
    (∃ (t u : State) (r : Word),
      exec (.dot 1#32 x) s = .next t ∧ t.responses = s.responses ++ [.ok r] ∧
      exec (.mul (elemAt s.pa.elems 0) (elemAt s.pb.elems 0)) s = .next u ∧
      u.responses = s.responses ++ [.ok r]) ∧
    dotProgram s.pa s.pb 1 = mulProgram (elemAt s.pa.elems 0) (elemAt s.pb.elems 0)

/-- R94: "`dot([ONE, ZERO], [ONE, ONE], 2) == ONE`": the sum is `2^(2F)`. -/
def Obligations.DotSelectsATerm : Prop :=
  ∀ (s : State) (x : Word), s.ReadyForDot 2#32 →
    elemAt s.pa.elems 0 = kOne Config.build → elemAt s.pa.elems 1 = kZero Config.build →
    elemAt s.pb.elems 0 = kOne Config.build → elemAt s.pb.elems 1 = kOne Config.build →
    ∃ t, exec (.dot 2#32 x) s = .next t ∧
      t.responses = s.responses ++ [.ok (kOne Config.build)] ∧
      dotSum s.pa s.pb 2 = 2 ^ (2 * Config.build.fracBits)

/-- R95: with `q_i = a[i] * b[i] / 2^F`, and where nothing wraps, `Σ floor(q_i) <= floor(Σ q_i) <=
Σ floor(q_i) + (n - 1)`: a `DOT` is never below the sum of the `MUL`s of its terms and exceeds it by at
most `n - 1`. The spec's length-3 example returns 1 where the terms alone narrow to 0. The record of the
reads is the model's own (log entry 7). -/
def Obligations.DotRoundsOnce : Prop :=
  (∀ (s : State) (n x : Word), s.ReadyForDot n →
    -(2 : Int) ^ (31 + Config.build.fracBits) ≤ dotSum s.pa s.pb n.toNat →
    dotSum s.pa s.pb n.toNat < 2 ^ (31 + Config.build.fracBits) →
    (∀ i, i < n.toNat →
      -(2 : Int) ^ (31 + Config.build.fracBits) ≤ s.pa.elemInt i * s.pb.elemInt i ∧
        s.pa.elemInt i * s.pb.elemInt i < 2 ^ (31 + Config.build.fracBits)) →
    ∃ (r : Word) (m : Nat → Word),
    exec (.dot n x) s = .next ((s.withReads (readOrder n.toNat)).responded (.ok r)) ∧
    (∀ i, i < n.toNat → exec (.mul (elemAt s.pa.elems i) (elemAt s.pb.elems i)) s =
      .next (s.responded (.ok (m i)))) ∧
    ((Finset.range n.toNat).sum fun i => (m i).toInt) ≤ r.toInt ∧
    r.toInt ≤ ((Finset.range n.toNat).sum fun i => (m i).toInt) + ((n.toNat : Int) - 1)) ∧
  ∀ (s : State) (x : Word), s.ReadyForDot 3#32 →
    (∀ i, i < 3 → elemAt s.pa.elems i = 1#32 <<< (Config.build.fracBits - 1) ∧
      elemAt s.pb.elems i = 1#32) →
    exec (.dot 3#32 x) s = .next ((s.withReads [0#32, 2#32, 1#32]).responded (.ok 1#32)) ∧
    exec (.mul (1#32 <<< (Config.build.fracBits - 1)) 1#32) s = .next (s.responded (.ok 0#32))

/-- R126: the result is unchanged when the same permutation is applied to both sequences and when the two
sequences are exchanged. -/
def Obligations.DotIgnoresTheOrderOfTerms : Prop :=
  (∀ (s t : State) (n x : Word) (σ : Equiv.Perm (Fin n.toNat)),
    s.ReadyForDot n → t.ReadyForDot n →
    (∀ i : Fin n.toNat, elemAt t.pa.elems i = elemAt s.pa.elems (σ i) ∧
      elemAt t.pb.elems i = elemAt s.pb.elems (σ i)) →
    ∃ r : Word,
      exec (.dot n x) s = .next ((s.withReads (readOrder n.toNat)).responded (.ok r)) ∧
      exec (.dot n x) t = .next ((t.withReads (readOrder n.toNat)).responded (.ok r))) ∧
  ∀ (s t : State) (n x : Word), s.ReadyForDot n → t.ReadyForDot n →
    (∀ i, i < n.toNat → elemAt t.pa.elems i = elemAt s.pb.elems i ∧
      elemAt t.pb.elems i = elemAt s.pa.elems i) →
    ∃ r : Word,
      exec (.dot n x) s = .next ((s.withReads (readOrder n.toNat)).responded (.ok r)) ∧
      exec (.dot n x) t = .next ((t.withReads (readOrder n.toNat)).responded (.ok r))

/-! ## Responses, errors, and what persists -/

/-- R142: a request whose `op` is `00` or `11`: the block reads nothing, issues no micro-operation and
responds `InvalidCommand`. That acceptance and the error response are ONE step, also under the move `turn`,
is the model's choice, marked unsafe (log entry 25), as is the list of moves (log entry 5). -/
def Obligations.ReservedRequestsAnswerInvalidCommand : Prop :=
  ∀ (s : State) (a b : Word) (op : BitVec 2) (ws : List OpWord),
    s.busy = false → s.BlockMoves → (op = 0b00#2 ∨ op = 0b11#2) →
    s.requests = (op ++ (a ++ b)) :: ws →
    step s = .next (State.responded { s.popMove with requests := ws } .invalidCommand) ∧
    Response.invalidCommand.status = 0b10#2

/-- R148: an error is not sticky: after it the next request is executed exactly as if it had not
happened. The first part is about commands; the second about a step of the machine: after a request that
errs, of either kind, whatever the next request and the next move are, the next step does what it would
have done had the erroring request never been presented, one error response earlier in the record. That
acceptance and the error response are ONE step, also under the move `turn`, is the model's choice, marked
unsafe (log entry 25); the moves and the record of the responses are the model's own (log entries 5 and 7). -/
def Obligations.ErrorsAreNotSticky : Prop :=
  (∀ (s : State) (n x : Word), s.busy = false → (n = 0#32 ∨ s.pa.len < n ∨ s.pb.len < n) →
    ∃ t, exec (.dot n x) s = .next t ∧
      (∀ a b : Word, ∃ r : Word, exec (.mul a b) s = .next (s.responded (.ok r)) ∧
        exec (.mul a b) t = .next (t.responded (.ok r))) ∧
      ∀ m y : Word, s.ReadyForDot m → ∃ r : Word,
        exec (.dot m y) s = .next ((s.withReads (readOrder m.toNat)).responded (.ok r)) ∧
        exec (.dot m y) t = .next ((t.withReads (readOrder m.toNat)).responded (.ok r))) ∧
  ∀ (s : State) (w : OpWord) (ws : List OpWord) (e : Response), s.busy = false → s.HoldsNothing →
    s.BlockMoves → s.requests = w :: ws → s.RequestErrs w e →
    let before : State := { s.popMove with requests := ws }
    let after : State := { before with responses := s.responses ++ [e] }
    step s = .next after ∧
    step after = andThen (step before) fun t =>
      .next { t with responses := s.responses ++ e :: t.responses.drop s.responses.length }

/-- R65: "Exactly one response is delivered for each accepted request": an idle block running undisturbed,
its ports answering, takes one request and delivers one response, and is idle again holding nothing (in one
step of the model, log entries 4 and 5). -/
def Obligations.OneResponsePerRequest : Prop :=
  ∀ (s : State) (w : OpWord) (ws : List OpWord), s.busy = false →
    (s.moves = [] ∨ ∃ ms, s.moves = .whole :: ms) → s.requests = w :: ws →
    s.pa.answers = true → s.pb.answers = true →
    ∃ (t : State) (r : Response), step s = .next t ∧ t.requests = ws ∧
      t.responses = s.responses ++ [r] ∧ t.busy = false ∧ t.HoldsNothing

/-- R20: between two commands the block holds no state: from two idle states with the same sequences bound
and answering, whatever else they hold, a command gets the same response. -/
def Obligations.NothingPersistsBetweenCommands : Prop :=
  ∀ (s t : State) (i : Instr), i.format = .request → s.busy = false → t.busy = false →
    s.pa.len = t.pa.len → s.pb.len = t.pb.len →
    (∀ j, elemAt s.pa.elems j = elemAt t.pa.elems j ∧ elemAt s.pb.elems j = elemAt t.pb.elems j) →
    s.pa.answers = true → s.pb.answers = true → t.pa.answers = true → t.pb.answers = true →
    ∃ (s' t' : State) (r : Response), exec i s = .next s' ∧ exec i t = .next t' ∧
      s'.responses = s.responses ++ [r] ∧ t'.responses = t.responses ++ [r]

/-- R163: a request presented while the block is busy waits, unaccepted and not dropped; the running
command is not disturbed, and while it runs no waiting request is taken. Where a waiting request stands in
State is the model's choice (log entries 5 and 16). -/
def Obligations.BusyBlockLeavesRequestsWaiting : Prop :=
  (∀ (s : State) (a b : Word), s.busy = true →
    exec (.mul a b) s = .next { s with requests := s.requests ++ [encode (.mul a b)] } ∧
    exec (.dot a b) s = .next { s with requests := s.requests ++ [encode (.dot a b)] }) ∧
  (∀ (s : State) (w : OpWord) (ms : List Move), s.moves = .present w :: ms →
    step s = .next { s with requests := s.requests ++ [w], moves := ms }) ∧
  ∀ s t : State, s.Inv → s.busy = true → s.BlockMoves → step s = .next t → t.requests = s.requests

/-! ## Memory -/

/-- R43: no instruction stores: after any instruction that gives a next state every element of both
sequences reads as before, and so do the lengths. -/
def Obligations.NoInstructionStores : Prop :=
  ∀ (i : Instr) (s t : State), exec i s = .next t →
    ∀ (q : PortId), (t.port q).len = (s.port q).len ∧
      ∀ j, (t.port q).elem? j = (s.port q).elem? j

/-- R43 for the machine: a step in which the world itself binds and writes nothing (the model's moves, log
entry 5) leaves the sequences as they are. -/
def Obligations.BlockNeverWritesMemory : Prop :=
  ∀ s t : State, s.KeepsElements → step s = .next t →
    t.pa.elems = s.pa.elems ∧ t.pa.len = s.pa.len ∧ t.pb.elems = s.pb.elems ∧ t.pb.len = s.pb.len

/-- R42: only `DOT` reaches the two spaces: every other instruction leaves both ports as they are, the
record of the reads (the model's own, log entry 7) included. -/
def Obligations.OnlyDotReads : Prop :=
  ∀ (i : Instr) (s t : State), (∀ n x, i ≠ .dot n x) → exec i s = .next t → t.pa = s.pa ∧ t.pb = s.pb

/-- R44: a step of a running command within its bounds reads at most one element on each port, and only
one of the first `n`; no step of a running command reads outside its sequence. Moves and the record of the
reads are the model's own (log entries 5 and 7). -/
def Obligations.ReadsStayWithinTheCount : Prop :=
  ∀ s t : State, s.Inv → s.InBounds → s.busy = true → s.BlockMoves → step s = .next t →
    (t.pa.reads = s.pa.reads ∨
      ∃ n i, s.cnt = some n ∧ i < n ∧ i < s.pa.len ∧ t.pa.reads = s.pa.reads ++ [i]) ∧
    (t.pb.reads = s.pb.reads ∨
      ∃ n i, s.cnt = some n ∧ i < n ∧ i < s.pb.len ∧ t.pb.reads = s.pb.reads ++ [i])

/-- R55 and R164: a write by another agent, also while a command runs, is seen whole by every later read of
that element and by no other; it changes nothing the block holds, the elements already read included. The
write is a move of the model's (log entry 5). -/
def Obligations.RacingWriteIsSeenByLaterReadsOnly : Prop :=
  ∀ (s : State) (q : PortId) (i v : Word) (ms : List Move), s.Inv →
    s.moves = .store [(q, i, v)] :: ms → i < (s.port q).len →
    ∃ t, step s = .next t ∧ (t.port q).elem? i = some v ∧
      (∀ r j, ¬ (r = q ∧ j = i) → (t.port r).elem? j = (s.port r).elem? j) ∧
      t = { s with moves := ms,
                   pa := { s.pa with elems := t.pa.elems },
                   pb := { s.pb with elems := t.pb.elems } }

/-! ## Reset and the constants -/

/-- R160 (the spec's decision D18): "idle, no command in flight, no response pending, `ACC` and the
sequencer without value, the constants valid"; the constants are 0, 2^F and 2^(F+1) (R33). That no response
is pending is `RES` without value; that the record of the responses delivered is empty is the model's own
value (log entry 7). -/
def Obligations.ResetLeavesTheBlockIdle : Prop :=
  State.reset.busy = false ∧ State.reset.responses = [] ∧ State.reset.acc = none ∧
    State.reset.res = none ∧ State.reset.opl = none ∧ State.reset.la = none ∧ State.reset.lb = none ∧
    State.reset.cnt = none ∧ State.reset.idx = none ∧
    ∀ b : Build, (kZero b).toInt = 0 ∧ (kOne b).toInt = 2 ^ b.fracBits ∧
      (kTwo b).toInt = 2 ^ (b.fracBits + 1)

/-- R161: reset during a command abandons it: no response, no read, the block idle and holding nothing;
ports, waiting requests and responses are the caller's and stay, which is the model's choice, as is the move
itself (log entries 5, 8 and 14). -/
def Obligations.ResetAbandonsTheCommand : Prop :=
  ∀ (s : State) (ms : List Move), s.moves = .reset :: ms →
    ∃ t, step s = .next t ∧ t.busy = false ∧ t.HoldsNothing ∧ t.responses = s.responses ∧
      t.pa = s.pa ∧ t.pb = s.pb ∧ t.requests = s.requests ∧ t.moves = ms

/-- R81: the numbers patterns stand for are the multiples of `ε` from `-2^(31-F)` to `2^(31-F) - ε`, and every
one of them has a pattern. -/
def Obligations.ValuesSpanTheFormat : Prop :=
  ∀ b : Build,
    (∀ v : Word, -(2 : ℚ) ^ (31 - b.fracBits) ≤ value b v ∧
      value b v ≤ 2 ^ (31 - b.fracBits) - resolution b ∧ ∃ k : Int, value b v = k * resolution b) ∧
    ∀ k : Int, -(2 : ℚ) ^ (31 - b.fracBits) ≤ k * resolution b →
      (k : ℚ) * resolution b ≤ 2 ^ (31 - b.fracBits) - resolution b → ∃ v : Word, value b v = k * resolution b

/-! ## Invariants and runs -/

/-- The invariant holds after reset (R33); the ports' state there is the model's choice (log entry 6). -/
def Obligations.ResetMeetsTheInvariant : Prop :=
  State.reset.Inv ∧ State.reset.InBounds ∧ State.reset.AccHoldsSum

/-- Every step keeps the invariant, whatever the world does: the elements keep their form, an idle block
holds nothing (R28), a busy block is inside one of its programs. The form of the elements, the moves and
the pair in work are the model's (log entries 5, 6 and 8). -/
def Obligations.StepKeepsTheInvariant : Prop :=
  ∀ s t : State, s.Inv → step s = .next t → t.Inv

/-- While bindings are kept (R164), no step of the machine stops, and the count stays within the sequences:
a read of `ACC` (R27) or of a sequencer register (U13) without value, of an element that does not exist
(R44), and a micro-operation without meaning (R68) are unreachable. It rests on choices of the model as
well: that a sum outside 64 bits does not stop is `ACC_OVERFLOW = wrap` (R120, R128, the spec's decision
D12; log entry 2, unsafe), that a step with a silent port or with nothing presented answers the state as it
is are log entries 9 and 13, and the moves log entry 5. -/
def Obligations.StepAlwaysAnswers : Prop :=
  ∀ s : State, s.Inv → s.InBounds → s.KeepsBindings →
    ∃ t, step s = .next t ∧ t.Inv ∧ t.InBounds

/-- R125: between the `WMUL` and the `NARROW` of one `DOT`, `ACC` always holds `wrap_64` of the exact sum of
the products accumulated so far: every step that leaves the elements alone keeps it so. The pair in work is
the model's own (log entry 8). -/
def Obligations.AccAlwaysHoldsThePartialSum : Prop :=
  ∀ s t : State, s.Inv → s.AccHoldsSum → s.KeepsElements → step s = .next t → t.AccHoldsSum

/-- R123: the small-step program and the one-step form give the same: whatever the order of the reads of
each pair, `3n + 3` turns of the block from a presented `DOT` end where the undisturbed command ends, in
success and in error alike. The two grains and the turns are the model's (log entries 4, 5 and 15). -/
def Obligations.SmallStepsReachTheWholeDot : Prop :=
  ∀ (s : State) (n x : Word), s.busy = false → s.pa.answers = true → s.pb.answers = true →
    runSteps (3 * n.toNat + 3)
        { s with requests := [encode (.dot n x)],
                 moves := List.replicate (3 * n.toNat + 3) .turn } =
      exec (.dot n x) { s with requests := [], moves := [] }

/-- The same for `MUL`: acceptance, `WMUL`, `NARROW` and response are four turns (R111; log entries 4, 5
and 15). -/
def Obligations.SmallStepsReachTheWholeMul : Prop :=
  ∀ (s : State) (a b : Word) (ws : List OpWord) (ms : List Move), s.busy = false →
    runSteps 4
        { s with requests := encode (.mul a b) :: ws, moves := .turn :: .turn :: .turn :: .turn :: ms } =
      exec (.mul a b) { s with requests := ws, moves := ms }

/-- R130: every running command ends: undisturbed and with its reads answered, a busy block is idle with
its one response delivered, a result, after at most `3n + 2` steps for a `DOT` of count `n` and 3 for a
`MUL`. How many steps a command takes is the model's (log entries 5 and 15). -/
def Obligations.RunningCommandsEnd : Prop :=
  ∀ s : State, s.Inv → s.InBounds → s.busy = true → s.moves = [] → s.pa.answers = true →
    s.pb.answers = true →
    ∃ (k : Nat) (t : State) (r : Word), runSteps k s = .next t ∧
      t.busy = false ∧ t.responses = s.responses ++ [.ok r] ∧
      (s.cnt = none → k ≤ 3) ∧ ∀ n, s.cnt = some n → k ≤ 3 * n.toNat + 2

/-! ## What the caller and other agents do to the sequences -/

/-- R40 and R41: after the caller binds a sequence to a port, the port presents its length and its elements,
indices from 0 to the length and no others; the other port, what the port has read and whether it answers,
and the block are as before. A binding is a move of the model's, and a listing that names an index twice
stands for its first entry, one that does not name it for 0 (log entries 5 and 6). -/
def Obligations.BindingPresentsTheSequence : Prop :=
  ∀ (s : State) (q : PortId) (len : Word) (elems : List (Nat × Word)) (ms : List Move),
    s.moves = .bind q len elems :: ms →
    ∃ t, step s = .next t ∧ (t.port q).len = len ∧
      (∀ j : Word, (t.port q).elem? j = if j < len then some (elemAt elems j.toNat) else none) ∧
      (∀ r, r ≠ q → t.port r = s.port r) ∧
      (t.port q).reads = (s.port q).reads ∧ (t.port q).answers = (s.port q).answers ∧
      t = { s with moves := ms, pa := t.pa, pb := t.pb }

/-- R55 and R131 for writes of one moment, on both ports if the list says so: every element below the length
reads as the last write to it, or as before where none names it; lengths do not change and a write at or
above the length writes nothing; nothing the block holds changes. The move, and that the later of two
writes stands, are the model's choice (log entries 5 and 24). -/
def Obligations.WritesOfOneMomentAreAllSeen : Prop :=
  ∀ (s : State) (writes : List (PortId × Word × Word)) (ms : List Move), s.Inv →
    s.moves = .store writes :: ms →
    ∃ t, step s = .next t ∧
      (∀ (q : PortId) (j : Word),
        (t.port q).len = (s.port q).len ∧
        (t.port q).elem? j =
          match (writes.filter fun e => e.1 = q && e.2.1 = j).getLast? with
          | some e => if j < (s.port q).len then some e.2.2 else none
          | none   => (s.port q).elem? j) ∧
      t = { s with moves := ms,
                   pa := { s.pa with elems := t.pa.elems },
                   pb := { s.pb with elems := t.pb.elems } }
end

