-- ==== Sys2Proof/Laws/State.lean ====
section
/-! SUPPORT. One lemma per field per named update of the state, true by rfl, so that no proof unfolds a
record update. -/

namespace Sys2Proof.Machine

/-! ## idle -/

@[simp] theorem State.idle_acc (s : State) : s.idle.acc = none := rfl
@[simp] theorem State.idle_res (s : State) : s.idle.res = none := rfl
@[simp] theorem State.idle_busy (s : State) : s.idle.busy = false := rfl
@[simp] theorem State.idle_opl (s : State) : s.idle.opl = none := rfl
@[simp] theorem State.idle_la (s : State) : s.idle.la = none := rfl
@[simp] theorem State.idle_lb (s : State) : s.idle.lb = none := rfl
@[simp] theorem State.idle_cnt (s : State) : s.idle.cnt = none := rfl
@[simp] theorem State.idle_idx (s : State) : s.idle.idx = none := rfl
@[simp] theorem State.idle_x (s : State) : s.idle.x = none := rfl
@[simp] theorem State.idle_y (s : State) : s.idle.y = none := rfl
@[simp] theorem State.idle_pa (s : State) : s.idle.pa = s.pa := rfl
@[simp] theorem State.idle_pb (s : State) : s.idle.pb = s.pb := rfl
@[simp] theorem State.idle_requests (s : State) : s.idle.requests = s.requests := rfl
@[simp] theorem State.idle_responses (s : State) : s.idle.responses = s.responses := rfl
@[simp] theorem State.idle_moves (s : State) : s.idle.moves = s.moves := rfl

/-! ## accepted -/

@[simp] theorem State.accepted_acc (s : State) (op : BitVec 2) (a b : Word) :
    (s.accepted op a b).acc = none := rfl
@[simp] theorem State.accepted_res (s : State) (op : BitVec 2) (a b : Word) :
    (s.accepted op a b).res = none := rfl
@[simp] theorem State.accepted_busy (s : State) (op : BitVec 2) (a b : Word) :
    (s.accepted op a b).busy = true := rfl
@[simp] theorem State.accepted_opl (s : State) (op : BitVec 2) (a b : Word) :
    (s.accepted op a b).opl = some op := rfl
@[simp] theorem State.accepted_la (s : State) (op : BitVec 2) (a b : Word) :
    (s.accepted op a b).la = some a := rfl
@[simp] theorem State.accepted_lb (s : State) (op : BitVec 2) (a b : Word) :
    (s.accepted op a b).lb = some b := rfl
@[simp] theorem State.accepted_cnt (s : State) (op : BitVec 2) (a b : Word) :
    (s.accepted op a b).cnt = if op = 0b10#2 then some a else none := rfl
@[simp] theorem State.accepted_idx (s : State) (op : BitVec 2) (a b : Word) :
    (s.accepted op a b).idx = none := rfl
@[simp] theorem State.accepted_x (s : State) (op : BitVec 2) (a b : Word) :
    (s.accepted op a b).x = none := rfl
@[simp] theorem State.accepted_y (s : State) (op : BitVec 2) (a b : Word) :
    (s.accepted op a b).y = none := rfl
@[simp] theorem State.accepted_pa (s : State) (op : BitVec 2) (a b : Word) :
    (s.accepted op a b).pa = s.pa := rfl
@[simp] theorem State.accepted_pb (s : State) (op : BitVec 2) (a b : Word) :
    (s.accepted op a b).pb = s.pb := rfl
@[simp] theorem State.accepted_requests (s : State) (op : BitVec 2) (a b : Word) :
    (s.accepted op a b).requests = s.requests := rfl
@[simp] theorem State.accepted_responses (s : State) (op : BitVec 2) (a b : Word) :
    (s.accepted op a b).responses = s.responses := rfl
@[simp] theorem State.accepted_moves (s : State) (op : BitVec 2) (a b : Word) :
    (s.accepted op a b).moves = s.moves := rfl

/-! ## responded -/

@[simp] theorem State.responded_acc (s : State) (r : Response) : (s.responded r).acc = none := rfl
@[simp] theorem State.responded_res (s : State) (r : Response) : (s.responded r).res = none := rfl
@[simp] theorem State.responded_busy (s : State) (r : Response) : (s.responded r).busy = false := rfl
@[simp] theorem State.responded_opl (s : State) (r : Response) : (s.responded r).opl = none := rfl
@[simp] theorem State.responded_la (s : State) (r : Response) : (s.responded r).la = none := rfl
@[simp] theorem State.responded_lb (s : State) (r : Response) : (s.responded r).lb = none := rfl
@[simp] theorem State.responded_cnt (s : State) (r : Response) : (s.responded r).cnt = none := rfl
@[simp] theorem State.responded_idx (s : State) (r : Response) : (s.responded r).idx = none := rfl
@[simp] theorem State.responded_x (s : State) (r : Response) : (s.responded r).x = none := rfl
@[simp] theorem State.responded_y (s : State) (r : Response) : (s.responded r).y = none := rfl
@[simp] theorem State.responded_pa (s : State) (r : Response) : (s.responded r).pa = s.pa := rfl
@[simp] theorem State.responded_pb (s : State) (r : Response) : (s.responded r).pb = s.pb := rfl
@[simp] theorem State.responded_requests (s : State) (r : Response) : (s.responded r).requests = s.requests := rfl
@[simp] theorem State.responded_responses (s : State) (r : Response) : (s.responded r).responses = s.responses ++ [r] := rfl
@[simp] theorem State.responded_moves (s : State) (r : Response) : (s.responded r).moves = s.moves := rfl

/-! ## present -/

@[simp] theorem State.present_acc (s : State) (w : OpWord) : (s.present w).acc = s.acc := rfl
@[simp] theorem State.present_res (s : State) (w : OpWord) : (s.present w).res = s.res := rfl
@[simp] theorem State.present_busy (s : State) (w : OpWord) : (s.present w).busy = s.busy := rfl
@[simp] theorem State.present_opl (s : State) (w : OpWord) : (s.present w).opl = s.opl := rfl
@[simp] theorem State.present_la (s : State) (w : OpWord) : (s.present w).la = s.la := rfl
@[simp] theorem State.present_lb (s : State) (w : OpWord) : (s.present w).lb = s.lb := rfl
@[simp] theorem State.present_cnt (s : State) (w : OpWord) : (s.present w).cnt = s.cnt := rfl
@[simp] theorem State.present_idx (s : State) (w : OpWord) : (s.present w).idx = s.idx := rfl
@[simp] theorem State.present_x (s : State) (w : OpWord) : (s.present w).x = s.x := rfl
@[simp] theorem State.present_y (s : State) (w : OpWord) : (s.present w).y = s.y := rfl
@[simp] theorem State.present_pa (s : State) (w : OpWord) : (s.present w).pa = s.pa := rfl
@[simp] theorem State.present_pb (s : State) (w : OpWord) : (s.present w).pb = s.pb := rfl
@[simp] theorem State.present_requests (s : State) (w : OpWord) : (s.present w).requests = s.requests ++ [w] := rfl
@[simp] theorem State.present_responses (s : State) (w : OpWord) : (s.present w).responses = s.responses := rfl
@[simp] theorem State.present_moves (s : State) (w : OpWord) : (s.present w).moves = s.moves := rfl

/-! ## withAcc -/

@[simp] theorem State.withAcc_acc (s : State) (v : Wide) :
    (s.withAcc v).acc = some v := rfl
@[simp] theorem State.withAcc_res (s : State) (v : Wide) :
    (s.withAcc v).res = s.res := rfl
@[simp] theorem State.withAcc_busy (s : State) (v : Wide) :
    (s.withAcc v).busy = s.busy := rfl
@[simp] theorem State.withAcc_opl (s : State) (v : Wide) :
    (s.withAcc v).opl = s.opl := rfl
@[simp] theorem State.withAcc_la (s : State) (v : Wide) :
    (s.withAcc v).la = s.la := rfl
@[simp] theorem State.withAcc_lb (s : State) (v : Wide) :
    (s.withAcc v).lb = s.lb := rfl
@[simp] theorem State.withAcc_cnt (s : State) (v : Wide) :
    (s.withAcc v).cnt = s.cnt := rfl
@[simp] theorem State.withAcc_idx (s : State) (v : Wide) :
    (s.withAcc v).idx = s.idx := rfl
@[simp] theorem State.withAcc_x (s : State) (v : Wide) :
    (s.withAcc v).x = s.x := rfl
@[simp] theorem State.withAcc_y (s : State) (v : Wide) :
    (s.withAcc v).y = s.y := rfl
@[simp] theorem State.withAcc_pa (s : State) (v : Wide) :
    (s.withAcc v).pa = s.pa := rfl
@[simp] theorem State.withAcc_pb (s : State) (v : Wide) :
    (s.withAcc v).pb = s.pb := rfl
@[simp] theorem State.withAcc_requests (s : State) (v : Wide) :
    (s.withAcc v).requests = s.requests := rfl
@[simp] theorem State.withAcc_responses (s : State) (v : Wide) :
    (s.withAcc v).responses = s.responses := rfl
@[simp] theorem State.withAcc_moves (s : State) (v : Wide) :
    (s.withAcc v).moves = s.moves := rfl

/-! ## withRes -/

@[simp] theorem State.withRes_acc (s : State) (v : Word) :
    (s.withRes v).acc = s.acc := rfl
@[simp] theorem State.withRes_res (s : State) (v : Word) :
    (s.withRes v).res = some v := rfl
@[simp] theorem State.withRes_busy (s : State) (v : Word) :
    (s.withRes v).busy = s.busy := rfl
@[simp] theorem State.withRes_opl (s : State) (v : Word) :
    (s.withRes v).opl = s.opl := rfl
@[simp] theorem State.withRes_la (s : State) (v : Word) :
    (s.withRes v).la = s.la := rfl
@[simp] theorem State.withRes_lb (s : State) (v : Word) :
    (s.withRes v).lb = s.lb := rfl
@[simp] theorem State.withRes_cnt (s : State) (v : Word) :
    (s.withRes v).cnt = s.cnt := rfl
@[simp] theorem State.withRes_idx (s : State) (v : Word) :
    (s.withRes v).idx = s.idx := rfl
@[simp] theorem State.withRes_x (s : State) (v : Word) :
    (s.withRes v).x = s.x := rfl
@[simp] theorem State.withRes_y (s : State) (v : Word) :
    (s.withRes v).y = s.y := rfl
@[simp] theorem State.withRes_pa (s : State) (v : Word) :
    (s.withRes v).pa = s.pa := rfl
@[simp] theorem State.withRes_pb (s : State) (v : Word) :
    (s.withRes v).pb = s.pb := rfl
@[simp] theorem State.withRes_requests (s : State) (v : Word) :
    (s.withRes v).requests = s.requests := rfl
@[simp] theorem State.withRes_responses (s : State) (v : Word) :
    (s.withRes v).responses = s.responses := rfl
@[simp] theorem State.withRes_moves (s : State) (v : Word) :
    (s.withRes v).moves = s.moves := rfl

/-! ## withIdx -/

@[simp] theorem State.withIdx_acc (s : State) (i : Word) :
    (s.withIdx i).acc = s.acc := rfl
@[simp] theorem State.withIdx_res (s : State) (i : Word) :
    (s.withIdx i).res = s.res := rfl
@[simp] theorem State.withIdx_busy (s : State) (i : Word) :
    (s.withIdx i).busy = s.busy := rfl
@[simp] theorem State.withIdx_opl (s : State) (i : Word) :
    (s.withIdx i).opl = s.opl := rfl
@[simp] theorem State.withIdx_la (s : State) (i : Word) :
    (s.withIdx i).la = s.la := rfl
@[simp] theorem State.withIdx_lb (s : State) (i : Word) :
    (s.withIdx i).lb = s.lb := rfl
@[simp] theorem State.withIdx_cnt (s : State) (i : Word) :
    (s.withIdx i).cnt = s.cnt := rfl
@[simp] theorem State.withIdx_idx (s : State) (i : Word) :
    (s.withIdx i).idx = some i := rfl
@[simp] theorem State.withIdx_x (s : State) (i : Word) :
    (s.withIdx i).x = s.x := rfl
@[simp] theorem State.withIdx_y (s : State) (i : Word) :
    (s.withIdx i).y = s.y := rfl
@[simp] theorem State.withIdx_pa (s : State) (i : Word) :
    (s.withIdx i).pa = s.pa := rfl
@[simp] theorem State.withIdx_pb (s : State) (i : Word) :
    (s.withIdx i).pb = s.pb := rfl
@[simp] theorem State.withIdx_requests (s : State) (i : Word) :
    (s.withIdx i).requests = s.requests := rfl
@[simp] theorem State.withIdx_responses (s : State) (i : Word) :
    (s.withIdx i).responses = s.responses := rfl
@[simp] theorem State.withIdx_moves (s : State) (i : Word) :
    (s.withIdx i).moves = s.moves := rfl

/-! ## loggedPair -/

@[simp] theorem State.loggedPair_acc (s : State) (i : Word) :
    (s.loggedPair i).acc = s.acc := rfl
@[simp] theorem State.loggedPair_res (s : State) (i : Word) :
    (s.loggedPair i).res = s.res := rfl
@[simp] theorem State.loggedPair_busy (s : State) (i : Word) :
    (s.loggedPair i).busy = s.busy := rfl
@[simp] theorem State.loggedPair_opl (s : State) (i : Word) :
    (s.loggedPair i).opl = s.opl := rfl
@[simp] theorem State.loggedPair_la (s : State) (i : Word) :
    (s.loggedPair i).la = s.la := rfl
@[simp] theorem State.loggedPair_lb (s : State) (i : Word) :
    (s.loggedPair i).lb = s.lb := rfl
@[simp] theorem State.loggedPair_cnt (s : State) (i : Word) :
    (s.loggedPair i).cnt = s.cnt := rfl
@[simp] theorem State.loggedPair_idx (s : State) (i : Word) :
    (s.loggedPair i).idx = s.idx := rfl
@[simp] theorem State.loggedPair_x (s : State) (i : Word) :
    (s.loggedPair i).x = s.x := rfl
@[simp] theorem State.loggedPair_y (s : State) (i : Word) :
    (s.loggedPair i).y = s.y := rfl
@[simp] theorem State.loggedPair_pa (s : State) (i : Word) :
    (s.loggedPair i).pa = s.pa.logged i := rfl
@[simp] theorem State.loggedPair_pb (s : State) (i : Word) :
    (s.loggedPair i).pb = s.pb.logged i := rfl
@[simp] theorem State.loggedPair_requests (s : State) (i : Word) :
    (s.loggedPair i).requests = s.requests := rfl
@[simp] theorem State.loggedPair_responses (s : State) (i : Word) :
    (s.loggedPair i).responses = s.responses := rfl
@[simp] theorem State.loggedPair_moves (s : State) (i : Word) :
    (s.loggedPair i).moves = s.moves := rfl

/-! ## consumedPair -/

@[simp] theorem State.consumedPair_acc (s : State) (i : Word) :
    (s.consumedPair i).acc = s.acc := rfl
@[simp] theorem State.consumedPair_res (s : State) (i : Word) :
    (s.consumedPair i).res = s.res := rfl
@[simp] theorem State.consumedPair_busy (s : State) (i : Word) :
    (s.consumedPair i).busy = s.busy := rfl
@[simp] theorem State.consumedPair_opl (s : State) (i : Word) :
    (s.consumedPair i).opl = s.opl := rfl
@[simp] theorem State.consumedPair_la (s : State) (i : Word) :
    (s.consumedPair i).la = s.la := rfl
@[simp] theorem State.consumedPair_lb (s : State) (i : Word) :
    (s.consumedPair i).lb = s.lb := rfl
@[simp] theorem State.consumedPair_cnt (s : State) (i : Word) :
    (s.consumedPair i).cnt = s.cnt := rfl
@[simp] theorem State.consumedPair_idx (s : State) (i : Word) :
    (s.consumedPair i).idx = some i := rfl
@[simp] theorem State.consumedPair_x (s : State) (i : Word) :
    (s.consumedPair i).x = none := rfl
@[simp] theorem State.consumedPair_y (s : State) (i : Word) :
    (s.consumedPair i).y = none := rfl
@[simp] theorem State.consumedPair_pa (s : State) (i : Word) :
    (s.consumedPair i).pa = s.pa := rfl
@[simp] theorem State.consumedPair_pb (s : State) (i : Word) :
    (s.consumedPair i).pb = s.pb := rfl
@[simp] theorem State.consumedPair_requests (s : State) (i : Word) :
    (s.consumedPair i).requests = s.requests := rfl
@[simp] theorem State.consumedPair_responses (s : State) (i : Word) :
    (s.consumedPair i).responses = s.responses := rfl
@[simp] theorem State.consumedPair_moves (s : State) (i : Word) :
    (s.consumedPair i).moves = s.moves := rfl

/-! ## withRequests -/

@[simp] theorem State.withRequests_acc (s : State) (ws : List OpWord) :
    (s.withRequests ws).acc = s.acc := rfl
@[simp] theorem State.withRequests_res (s : State) (ws : List OpWord) :
    (s.withRequests ws).res = s.res := rfl
@[simp] theorem State.withRequests_busy (s : State) (ws : List OpWord) :
    (s.withRequests ws).busy = s.busy := rfl
@[simp] theorem State.withRequests_opl (s : State) (ws : List OpWord) :
    (s.withRequests ws).opl = s.opl := rfl
@[simp] theorem State.withRequests_la (s : State) (ws : List OpWord) :
    (s.withRequests ws).la = s.la := rfl
@[simp] theorem State.withRequests_lb (s : State) (ws : List OpWord) :
    (s.withRequests ws).lb = s.lb := rfl
@[simp] theorem State.withRequests_cnt (s : State) (ws : List OpWord) :
    (s.withRequests ws).cnt = s.cnt := rfl
@[simp] theorem State.withRequests_idx (s : State) (ws : List OpWord) :
    (s.withRequests ws).idx = s.idx := rfl
@[simp] theorem State.withRequests_x (s : State) (ws : List OpWord) :
    (s.withRequests ws).x = s.x := rfl
@[simp] theorem State.withRequests_y (s : State) (ws : List OpWord) :
    (s.withRequests ws).y = s.y := rfl
@[simp] theorem State.withRequests_pa (s : State) (ws : List OpWord) :
    (s.withRequests ws).pa = s.pa := rfl
@[simp] theorem State.withRequests_pb (s : State) (ws : List OpWord) :
    (s.withRequests ws).pb = s.pb := rfl
@[simp] theorem State.withRequests_requests (s : State) (ws : List OpWord) :
    (s.withRequests ws).requests = ws := rfl
@[simp] theorem State.withRequests_responses (s : State) (ws : List OpWord) :
    (s.withRequests ws).responses = s.responses := rfl
@[simp] theorem State.withRequests_moves (s : State) (ws : List OpWord) :
    (s.withRequests ws).moves = s.moves := rfl

/-! ## withMoves -/

@[simp] theorem State.withMoves_acc (s : State) (ms : List Move) :
    (s.withMoves ms).acc = s.acc := rfl
@[simp] theorem State.withMoves_res (s : State) (ms : List Move) :
    (s.withMoves ms).res = s.res := rfl
@[simp] theorem State.withMoves_busy (s : State) (ms : List Move) :
    (s.withMoves ms).busy = s.busy := rfl
@[simp] theorem State.withMoves_opl (s : State) (ms : List Move) :
    (s.withMoves ms).opl = s.opl := rfl
@[simp] theorem State.withMoves_la (s : State) (ms : List Move) :
    (s.withMoves ms).la = s.la := rfl
@[simp] theorem State.withMoves_lb (s : State) (ms : List Move) :
    (s.withMoves ms).lb = s.lb := rfl
@[simp] theorem State.withMoves_cnt (s : State) (ms : List Move) :
    (s.withMoves ms).cnt = s.cnt := rfl
@[simp] theorem State.withMoves_idx (s : State) (ms : List Move) :
    (s.withMoves ms).idx = s.idx := rfl
@[simp] theorem State.withMoves_x (s : State) (ms : List Move) :
    (s.withMoves ms).x = s.x := rfl
@[simp] theorem State.withMoves_y (s : State) (ms : List Move) :
    (s.withMoves ms).y = s.y := rfl
@[simp] theorem State.withMoves_pa (s : State) (ms : List Move) :
    (s.withMoves ms).pa = s.pa := rfl
@[simp] theorem State.withMoves_pb (s : State) (ms : List Move) :
    (s.withMoves ms).pb = s.pb := rfl
@[simp] theorem State.withMoves_requests (s : State) (ms : List Move) :
    (s.withMoves ms).requests = s.requests := rfl
@[simp] theorem State.withMoves_responses (s : State) (ms : List Move) :
    (s.withMoves ms).responses = s.responses := rfl
@[simp] theorem State.withMoves_moves (s : State) (ms : List Move) :
    (s.withMoves ms).moves = ms := rfl

/-! ## latchElem -/

@[simp] theorem State.latchElem_acc (s : State) (q : PortId) (i v : Word) :
    (s.latchElem q i v).acc = s.acc := by cases q <;> rfl
@[simp] theorem State.latchElem_res (s : State) (q : PortId) (i v : Word) :
    (s.latchElem q i v).res = s.res := by cases q <;> rfl
@[simp] theorem State.latchElem_busy (s : State) (q : PortId) (i v : Word) :
    (s.latchElem q i v).busy = s.busy := by cases q <;> rfl
@[simp] theorem State.latchElem_opl (s : State) (q : PortId) (i v : Word) :
    (s.latchElem q i v).opl = s.opl := by cases q <;> rfl
@[simp] theorem State.latchElem_la (s : State) (q : PortId) (i v : Word) :
    (s.latchElem q i v).la = s.la := by cases q <;> rfl
@[simp] theorem State.latchElem_lb (s : State) (q : PortId) (i v : Word) :
    (s.latchElem q i v).lb = s.lb := by cases q <;> rfl
@[simp] theorem State.latchElem_cnt (s : State) (q : PortId) (i v : Word) :
    (s.latchElem q i v).cnt = s.cnt := by cases q <;> rfl
@[simp] theorem State.latchElem_idx (s : State) (q : PortId) (i v : Word) :
    (s.latchElem q i v).idx = s.idx := by cases q <;> rfl
@[simp] theorem State.latchElem_requests (s : State) (q : PortId) (i v : Word) :
    (s.latchElem q i v).requests = s.requests := by cases q <;> rfl
@[simp] theorem State.latchElem_responses (s : State) (q : PortId) (i v : Word) :
    (s.latchElem q i v).responses = s.responses := by cases q <;> rfl
@[simp] theorem State.latchElem_moves (s : State) (q : PortId) (i v : Word) :
    (s.latchElem q i v).moves = s.moves := by cases q <;> rfl
@[simp] theorem State.latchElem_pa_x (s : State) (i v : Word) :
    (s.latchElem .pa i v).x = some v := rfl
@[simp] theorem State.latchElem_pa_y (s : State) (i v : Word) :
    (s.latchElem .pa i v).y = s.y := rfl
@[simp] theorem State.latchElem_pa_pa (s : State) (i v : Word) :
    (s.latchElem .pa i v).pa = s.pa.logged i := rfl
@[simp] theorem State.latchElem_pa_pb (s : State) (i v : Word) :
    (s.latchElem .pa i v).pb = s.pb := rfl
@[simp] theorem State.latchElem_pb_x (s : State) (i v : Word) :
    (s.latchElem .pb i v).x = s.x := rfl
@[simp] theorem State.latchElem_pb_y (s : State) (i v : Word) :
    (s.latchElem .pb i v).y = some v := rfl
@[simp] theorem State.latchElem_pb_pa (s : State) (i v : Word) :
    (s.latchElem .pb i v).pa = s.pa := rfl
@[simp] theorem State.latchElem_pb_pb (s : State) (i v : Word) :
    (s.latchElem .pb i v).pb = s.pb.logged i := rfl

theorem State.withMoves_moves_self (s : State) : s.withMoves s.moves = s := rfl


/-! ## ports -/

@[simp] theorem State.setPort_acc (s : State) (q : PortId) (p : Port) : (s.setPort q p).acc = s.acc := by
  cases q <;> rfl
@[simp] theorem State.setPort_res (s : State) (q : PortId) (p : Port) : (s.setPort q p).res = s.res := by
  cases q <;> rfl
@[simp] theorem State.setPort_busy (s : State) (q : PortId) (p : Port) : (s.setPort q p).busy = s.busy := by
  cases q <;> rfl
@[simp] theorem State.setPort_opl (s : State) (q : PortId) (p : Port) : (s.setPort q p).opl = s.opl := by
  cases q <;> rfl
@[simp] theorem State.setPort_la (s : State) (q : PortId) (p : Port) : (s.setPort q p).la = s.la := by
  cases q <;> rfl
@[simp] theorem State.setPort_lb (s : State) (q : PortId) (p : Port) : (s.setPort q p).lb = s.lb := by
  cases q <;> rfl
@[simp] theorem State.setPort_cnt (s : State) (q : PortId) (p : Port) : (s.setPort q p).cnt = s.cnt := by
  cases q <;> rfl
@[simp] theorem State.setPort_idx (s : State) (q : PortId) (p : Port) : (s.setPort q p).idx = s.idx := by
  cases q <;> rfl
@[simp] theorem State.setPort_x (s : State) (q : PortId) (p : Port) : (s.setPort q p).x = s.x := by
  cases q <;> rfl
@[simp] theorem State.setPort_y (s : State) (q : PortId) (p : Port) : (s.setPort q p).y = s.y := by
  cases q <;> rfl
@[simp] theorem State.setPort_requests (s : State) (q : PortId) (p : Port) : (s.setPort q p).requests = s.requests := by
  cases q <;> rfl
@[simp] theorem State.setPort_responses (s : State) (q : PortId) (p : Port) : (s.setPort q p).responses = s.responses := by
  cases q <;> rfl
@[simp] theorem State.setPort_moves (s : State) (q : PortId) (p : Port) : (s.setPort q p).moves = s.moves := by
  cases q <;> rfl
@[simp] theorem State.setPort_pa_pa (s : State) (p : Port) : (s.setPort .pa p).pa = p := rfl
@[simp] theorem State.setPort_pa_pb (s : State) (p : Port) : (s.setPort .pa p).pb = s.pb := rfl
@[simp] theorem State.setPort_pb_pa (s : State) (p : Port) : (s.setPort .pb p).pa = s.pa := rfl
@[simp] theorem State.setPort_pb_pb (s : State) (p : Port) : (s.setPort .pb p).pb = p := rfl
@[simp] theorem State.port_pa (s : State) : s.port .pa = s.pa := rfl
@[simp] theorem State.port_pb (s : State) : s.port .pb = s.pb := rfl
@[simp] theorem Port.logged_len (p : Port) (i : Word) : (p.logged i).len = p.len := rfl
@[simp] theorem Port.logged_elems (p : Port) (i : Word) : (p.logged i).elems = p.elems := rfl
@[simp] theorem Port.logged_answers (p : Port) (i : Word) : (p.logged i).answers = p.answers := rfl
@[simp] theorem Port.logged_reads (p : Port) (i : Word) : (p.logged i).reads = p.reads ++ [i] := rfl
@[simp] theorem Port.logged_wf (p : Port) (i : Word) : (p.logged i).wf = p.wf := rfl
@[simp] theorem Port.logged_elem? (p : Port) (i j : Word) : (p.logged i).elem? j = p.elem? j := rfl
@[simp] theorem Port.rebind_len (p : Port) (n : Word) (l : List (Nat × Word)) : (p.rebind n l).len = n := rfl
@[simp] theorem Port.rebind_answers (p : Port) (n : Word) (l : List (Nat × Word)) :
    (p.rebind n l).answers = p.answers := rfl
@[simp] theorem Port.rebind_reads (p : Port) (n : Word) (l : List (Nat × Word)) :
    (p.rebind n l).reads = p.reads := rfl

/-! ## storeElems: elements only -/

@[simp] theorem State.storeElems_acc (ws : List (PortId × Word × Word)) (s : State) :
    (s.storeElems ws).acc = s.acc := by
  induction ws generalizing s with
  | nil => rfl
  | cons w ws ih => obtain ⟨q, i, v⟩ := w; simp [State.storeElems, ih]
@[simp] theorem State.storeElems_res (ws : List (PortId × Word × Word)) (s : State) :
    (s.storeElems ws).res = s.res := by
  induction ws generalizing s with
  | nil => rfl
  | cons w ws ih => obtain ⟨q, i, v⟩ := w; simp [State.storeElems, ih]
@[simp] theorem State.storeElems_busy (ws : List (PortId × Word × Word)) (s : State) :
    (s.storeElems ws).busy = s.busy := by
  induction ws generalizing s with
  | nil => rfl
  | cons w ws ih => obtain ⟨q, i, v⟩ := w; simp [State.storeElems, ih]
@[simp] theorem State.storeElems_opl (ws : List (PortId × Word × Word)) (s : State) :
    (s.storeElems ws).opl = s.opl := by
  induction ws generalizing s with
  | nil => rfl
  | cons w ws ih => obtain ⟨q, i, v⟩ := w; simp [State.storeElems, ih]
@[simp] theorem State.storeElems_la (ws : List (PortId × Word × Word)) (s : State) :
    (s.storeElems ws).la = s.la := by
  induction ws generalizing s with
  | nil => rfl
  | cons w ws ih => obtain ⟨q, i, v⟩ := w; simp [State.storeElems, ih]
@[simp] theorem State.storeElems_lb (ws : List (PortId × Word × Word)) (s : State) :
    (s.storeElems ws).lb = s.lb := by
  induction ws generalizing s with
  | nil => rfl
  | cons w ws ih => obtain ⟨q, i, v⟩ := w; simp [State.storeElems, ih]
@[simp] theorem State.storeElems_cnt (ws : List (PortId × Word × Word)) (s : State) :
    (s.storeElems ws).cnt = s.cnt := by
  induction ws generalizing s with
  | nil => rfl
  | cons w ws ih => obtain ⟨q, i, v⟩ := w; simp [State.storeElems, ih]
@[simp] theorem State.storeElems_idx (ws : List (PortId × Word × Word)) (s : State) :
    (s.storeElems ws).idx = s.idx := by
  induction ws generalizing s with
  | nil => rfl
  | cons w ws ih => obtain ⟨q, i, v⟩ := w; simp [State.storeElems, ih]
@[simp] theorem State.storeElems_x (ws : List (PortId × Word × Word)) (s : State) :
    (s.storeElems ws).x = s.x := by
  induction ws generalizing s with
  | nil => rfl
  | cons w ws ih => obtain ⟨q, i, v⟩ := w; simp [State.storeElems, ih]
@[simp] theorem State.storeElems_y (ws : List (PortId × Word × Word)) (s : State) :
    (s.storeElems ws).y = s.y := by
  induction ws generalizing s with
  | nil => rfl
  | cons w ws ih => obtain ⟨q, i, v⟩ := w; simp [State.storeElems, ih]
@[simp] theorem State.storeElems_requests (ws : List (PortId × Word × Word)) (s : State) :
    (s.storeElems ws).requests = s.requests := by
  induction ws generalizing s with
  | nil => rfl
  | cons w ws ih => obtain ⟨q, i, v⟩ := w; simp [State.storeElems, ih]
@[simp] theorem State.storeElems_responses (ws : List (PortId × Word × Word)) (s : State) :
    (s.storeElems ws).responses = s.responses := by
  induction ws generalizing s with
  | nil => rfl
  | cons w ws ih => obtain ⟨q, i, v⟩ := w; simp [State.storeElems, ih]
@[simp] theorem State.storeElems_moves (ws : List (PortId × Word × Word)) (s : State) :
    (s.storeElems ws).moves = s.moves := by
  induction ws generalizing s with
  | nil => rfl
  | cons w ws ih => obtain ⟨q, i, v⟩ := w; simp [State.storeElems, ih]

/-! ## an idle state that holds nothing is its own idle state -/

theorem State.idle_idle (s : State) : s.idle.idle = s.idle := rfl
theorem State.responded_idle (s : State) (r : Response) : s.idle.responded r = s.responded r := rfl
theorem State.idle_responded (s : State) (r : Response) : (s.responded r).idle = s.responded r := rfl

end Sys2Proof.Machine
end

