-- ==== Sys2Proof/Laws/Arith.lean ====
section
/-! SUPPORT. One lemma per arithmetic operation of the datapath, in the integer forms of the spec. -/

namespace Sys2Proof.Machine

theorem wrapTo_eq_toInt (n : Nat) (z : Int) : wrapTo n z = (BitVec.ofInt n z).toInt := by
  simp [wrapTo, BitVec.toInt_ofInt]

/-- The product of two 32-bit values in absolute value is at most `2^62` (R84). -/
theorem natAbs_product_le (a b : Word) : (a.toInt * b.toInt).natAbs ≤ 2 ^ 62 := by
  have ha := BitVec.toInt_lt (x := a)
  have ha' := BitVec.le_toInt (x := a)
  have hb := BitVec.toInt_lt (x := b)
  have hb' := BitVec.le_toInt (x := b)
  have h1 : a.toInt.natAbs ≤ 2 ^ 31 := by omega
  have h2 : b.toInt.natAbs ≤ 2 ^ 31 := by omega
  rw [Int.natAbs_mul]
  calc a.toInt.natAbs * b.toInt.natAbs ≤ 2 ^ 31 * 2 ^ 31 := Nat.mul_le_mul h1 h2
    _ = 2 ^ 62 := by norm_num

theorem wideProduct_eq_ofInt (a b : Word) : wideProduct a b = BitVec.ofInt 64 (a.toInt * b.toInt) := by
  rw [wideProduct, sext64, sext64, BitVec.signExtend, BitVec.signExtend, BitVec.ofInt_mul]

/-- The product is exact (R84, R110). -/
theorem toInt_wideProduct (a b : Word) : (wideProduct a b).toInt = a.toInt * b.toInt := by
  have h := natAbs_product_le a b
  rw [wideProduct_eq_ofInt, BitVec.toInt_ofInt]
  exact Int.bmod_eq_of_le (by omega) (by omega)

/-- With the wrapping adder the accumulation always answers, and modulo `2^64` it is the sum (R120). -/
theorem accumulated_wrap (acc p : Wide) :
    accumulated .wrap acc p = some (BitVec.ofInt 64 (acc.toInt + p.toInt)) := by
  unfold accumulated; split <;> rfl

/-- The wrapping adder is 64-bit addition. -/
theorem accumulated_wrap_add (acc p : Wide) : accumulated .wrap acc p = some (acc + p) := by
  rw [accumulated_wrap, BitVec.ofInt_add, BitVec.ofInt_toInt, BitVec.ofInt_toInt]

/-- The narrowing converter is floor division and wraparound (R86, R100). -/
theorem narrowed_eq_ofInt (b : Build) (acc : Wide) :
    narrowed b acc = BitVec.ofInt 32 (floorShift b acc.toInt) := by
  apply BitVec.eq_of_toInt_eq
  have hp : (2 : Int) ^ b.fracBits = ((2 ^ b.fracBits : Nat) : Int) := by norm_cast
  rw [narrowed, floorShift, Int.fdiv_eq_ediv_of_nonneg _ (by positivity), BitVec.toInt_ofInt,
    ← BitVec.signExtend_eq_setWidth_of_le _ (by decide), BitVec.toInt_signExtend_eq_toInt_bmod_of_le _ (by decide),
    BitVec.toInt_sshiftRight, Int.shiftRight_eq_div_pow, hp]

end Sys2Proof.Machine
end

