-- ==== Sys2Proof/Laws/Memory.lean ====
section
/-! SUPPORT. The elements behind the ports: read after write, and that every operation keeps their form. -/

namespace Sys2Proof.Machine

/-! ## Read after write -/

theorem elemAt_of_lt_all {l : List (Nat × Word)} {lo hi i : Nat} (h : elemsWf lo hi l = true)
    (hi' : i < lo) : elemAt l i = 0#32 := by
  induction l generalizing lo with
  | nil => rfl
  | cons e rest ih =>
    obtain ⟨k, v⟩ := e
    simp only [elemsWf, Bool.and_eq_true, decide_eq_true_eq] at h
    have hk : k ≠ i := by omega
    simpa [elemAt, hk] using ih h.2 (by omega)

theorem elemAt_storeElem_same {l : List (Nat × Word)} {lo hi : Nat} (h : elemsWf lo hi l = true)
    (i : Nat) (v : Word) : elemAt (storeElem l i v) i = v := by
  induction l generalizing lo with
  | nil => by_cases hv : v = 0#32 <;> simp [storeElem, elemAt, hv]
  | cons e rest ih =>
    obtain ⟨k, u⟩ := e
    simp only [elemsWf, Bool.and_eq_true, decide_eq_true_eq] at h
    obtain ⟨⟨⟨h1, h2⟩, h3⟩, hrest⟩ := h
    by_cases hlt : i < k
    · by_cases hv : v = 0#32
      · have hk : k ≠ i := by omega
        simp [storeElem, hlt, hv, elemAt, hk, elemAt_of_lt_all hrest (by omega : i < k + 1)]
      · simp [storeElem, hlt, hv, elemAt]
    · by_cases heq : i = k
      · subst heq
        by_cases hv : v = 0#32
        · simp [storeElem, hv, elemAt_of_lt_all hrest (by omega : i < i + 1)]
        · simp [storeElem, hv, elemAt]
      · have hk : k ≠ i := fun hh => heq hh.symm
        simpa [storeElem, hlt, heq, elemAt, hk] using ih hrest

theorem elemAt_storeElem_other (l : List (Nat × Word)) {i j : Nat} (v : Word) (hij : j ≠ i) :
    elemAt (storeElem l i v) j = elemAt l j := by
  induction l with
  | nil =>
    have : ¬ i = j := fun h => hij h.symm
    by_cases hv : v = 0#32 <;> simp [storeElem, elemAt, hv, this]
  | cons e rest ih =>
    obtain ⟨k, u⟩ := e
    have hne : ¬ i = j := fun h => hij h.symm
    by_cases hlt : i < k
    · by_cases hv : v = 0#32 <;> simp [storeElem, hlt, hv, elemAt, hne]
    · by_cases heq : i = k
      · subst heq
        by_cases hv : v = 0#32 <;> simp [storeElem, hv, elemAt, hne]
      · simp [storeElem, hlt, heq, elemAt, ih]

/-! ## The form is kept -/

theorem elemsWf_weaken {l : List (Nat × Word)} {lo lo' hi : Nat} (h : elemsWf lo hi l = true)
    (hle : lo' ≤ lo) : elemsWf lo' hi l = true := by
  cases l with
  | nil => rfl
  | cons e rest =>
    obtain ⟨k, v⟩ := e
    simp only [elemsWf, Bool.and_eq_true, decide_eq_true_eq] at h ⊢
    exact ⟨⟨⟨by omega, h.1.1.2⟩, h.1.2⟩, h.2⟩

theorem storeElem_wf {l : List (Nat × Word)} {lo hi i : Nat} (h : elemsWf lo hi l = true)
    (hlo : lo ≤ i) (hhi : i < hi) (v : Word) : elemsWf lo hi (storeElem l i v) = true := by
  induction l generalizing lo with
  | nil => by_cases hv : v = 0#32 <;> simp [storeElem, elemsWf, hv, hlo, hhi]
  | cons e rest ih =>
    obtain ⟨k, u⟩ := e
    have h' := h
    simp only [elemsWf, Bool.and_eq_true, decide_eq_true_eq] at h'
    obtain ⟨⟨⟨h1, h2⟩, h3⟩, hrest⟩ := h'
    by_cases hlt : i < k
    · by_cases hv : v = 0#32
      · simpa [storeElem, hlt, hv] using h
      · simp [storeElem, hlt, hv, elemsWf, hlo, hhi, h2, h3, hrest, Nat.succ_le_of_lt hlt]
    · by_cases heq : i = k
      · subst heq
        by_cases hv : v = 0#32
        · simpa [storeElem, hv] using elemsWf_weaken hrest (by omega)
        · simp [storeElem, hv, elemsWf, hlo, hhi, hrest]
      · simp [storeElem, hlt, heq, elemsWf, h1, h2, ih hrest (by omega)]
        exact h3

theorem Port.write_wf {p : Port} (h : p.wf = true) (i v : Word) : (p.write i v).wf = true := by
  unfold Port.write
  split
  · rename_i hi
    exact storeElem_wf h (Nat.zero_le _) (BitVec.lt_def.mp hi) v
  · exact h

theorem boundElems_wf (len : Word) (l : List (Nat × Word)) :
    elemsWf 0 len.toNat (boundElems len l) = true := by
  induction l with
  | nil => rfl
  | cons e rest ih =>
    obtain ⟨k, v⟩ := e
    unfold boundElems
    split
    · rename_i hk
      exact storeElem_wf ih (Nat.zero_le _) hk v
    · exact ih

/-- A binding reads as its listing below the length; of two entries for an index the first stands. -/
theorem elemAt_boundElems (len : Word) (l : List (Nat × Word)) {j : Nat} (hj : j < len.toNat) :
    elemAt (boundElems len l) j = elemAt l j := by
  induction l with
  | nil => rfl
  | cons e rest ih =>
    obtain ⟨k, v⟩ := e
    by_cases hkj : k = j
    · subst hkj
      simp [boundElems, hj, elemAt, elemAt_storeElem_same (boundElems_wf len rest)]
    · by_cases hk : k < len.toNat
      · simp [boundElems, hk, elemAt, hkj, elemAt_storeElem_other _ v (fun h => hkj h.symm), ih]
      · simp [boundElems, hk, elemAt, hkj, ih]

theorem Port.rebind_wf (p : Port) (len : Word) (l : List (Nat × Word)) :
    (p.rebind len l).wf = true := boundElems_wf len l

theorem Port.unbound_wf : Port.unbound.wf = true := rfl

/-- Every write of one moment keeps the form of both ports. -/
theorem State.storeElems_wf (ws : List (PortId × Word × Word)) (s : State)
    (ha : s.pa.wf = true) (hb : s.pb.wf = true) :
    (s.storeElems ws).pa.wf = true ∧ (s.storeElems ws).pb.wf = true := by
  induction ws generalizing s with
  | nil => exact ⟨ha, hb⟩
  | cons w ws ih =>
    obtain ⟨q, i, v⟩ := w
    cases q with
    | pa => exact ih _ (by simpa using Port.write_wf ha i v) (by simpa using hb)
    | pb => exact ih _ (by simpa using ha) (by simpa using Port.write_wf hb i v)

/-! ## Writes change neither length nor answers nor the record of reads -/

@[simp] theorem Port.write_len (p : Port) (i v : Word) : (p.write i v).len = p.len := by
  unfold Port.write; split <;> rfl

@[simp] theorem Port.write_answers (p : Port) (i v : Word) : (p.write i v).answers = p.answers := by
  unfold Port.write; split <;> rfl

@[simp] theorem Port.write_reads (p : Port) (i v : Word) : (p.write i v).reads = p.reads := by
  unfold Port.write; split <;> rfl

/-- A write is read back at its index, and every other element reads as before (R55). -/
theorem Port.elem?_write {p : Port} (h : p.wf = true) (i v j : Word) :
    (p.write i v).elem? j = if i = j ∧ j < p.len then some v else p.elem? j := by
  unfold Port.write
  by_cases hij : i = j
  · subst hij
    by_cases hi : i < p.len
    · simp [hi, Port.elem?, elemAt_storeElem_same h]
    · simp [hi]
  · have hne : j.toNat ≠ i.toNat := fun hh => hij (BitVec.eq_of_toNat_eq hh.symm)
    by_cases hi : i < p.len <;> simp [hi, hij, Port.elem?, elemAt_storeElem_other _ v hne]

theorem State.storeElems_len (ws : List (PortId × Word × Word)) (s : State) :
    (s.storeElems ws).pa.len = s.pa.len ∧ (s.storeElems ws).pb.len = s.pb.len := by
  induction ws generalizing s with
  | nil => exact ⟨rfl, rfl⟩
  | cons w ws ih =>
    obtain ⟨q, i, v⟩ := w
    cases q with
    | pa => simpa [State.storeElems] using ih (s.setPort .pa (s.pa.write i v))
    | pb => simpa [State.storeElems] using ih (s.setPort .pb (s.pb.write i v))

theorem Port.elem?_of_lt {p : Port} {i : Word} (h : i < p.len) :
    p.elem? i = some (elemAt p.elems i.toNat) := by simp [Port.elem?, h]

end Sys2Proof.Machine
end

