-- ==== Sys2Proof/Laws/Ops.lean ====
section
/-! SUPPORT. One lemma per shared operation and per meaning: what it answers. -/

namespace Sys2Proof.Machine

@[simp] theorem andThen_next (s : State) (f : State → Result) : andThen (.next s) f = f s := rfl
@[simp] theorem andThen_fault (r : Fault) (f : State → Result) : andThen (.fault r) f = .fault r := rfl
@[simp] theorem andThen_refused (r : Refusal) (f : State → Result) :
    andThen (.refused r) f = .refused r := rfl

/-- A chain answers a next state exactly when both of its parts do. -/
theorem andThen_eq_next {o : Result} {f : State → Result} {t : State} :
    andThen o f = .next t ↔ ∃ s, o = .next s ∧ f s = .next t := by
  cases o <;> simp [andThen]

theorem readAcc_eq {s : State} {acc : Wide} (f : Wide → Result) (h : s.acc = some acc) :
    s.readAcc f = f acc := by simp [State.readAcc, h]

theorem raiseError_eq (e : ErrorCode) (s : State) :
    raiseError e s = .next (s.responded e.response) := rfl

theorem execWmul_eq (ua ub : Word) (s : State) :
    execWmul ua ub s = .next (s.withAcc (wideProduct ua ub)) := rfl

theorem narrowAt_eq {s : State} {acc : Wide} (p : Params) (h : s.acc = some acc) :
    narrowAt p s = .next (s.withRes (narrowed p.build acc)) := readAcc_eq _ h

theorem narrowRespond_eq {s : State} {acc : Wide} (p : Params) (h : s.acc = some acc) :
    narrowRespond p s = .next (s.responded (.ok (narrowed p.build acc))) := readAcc_eq _ h

theorem wmacAt_wrap {s : State} {acc : Wide} {p : Params} (hp : p.accOverflow = .wrap)
    (ua ub : Word) (h : s.acc = some acc) :
    wmacAt p ua ub s = .next (s.withAcc (acc + wideProduct ua ub)) := by
  rw [wmacAt, readAcc_eq _ h]
  simp [hp, accumulated_wrap_add]

@[simp] theorem params_accOverflow : Config.params.accOverflow = .wrap := rfl
@[simp] theorem params_build : Config.params.build = Config.build := rfl

/-- Inside both sequences a pair is read and handed on, and the reads are recorded. -/
theorem withPair_eq {s : State} {i : Word} (f : Word → Word → State → Result)
    (ha : i < s.pa.len) (hb : i < s.pb.len) :
    withPair i s f =
      f (elemAt s.pa.elems i.toNat) (elemAt s.pb.elems i.toNat)
        (s.loggedPair i) := by
  simp [withPair, Port.elem?_of_lt ha, Port.elem?_of_lt hb]

/-- The check of R121 passes. -/
theorem dotInvalid_eq_false {s : State} {n : Word} :
    s.dotInvalid n = false ↔ n ≠ 0#32 ∧ n ≤ s.pa.len ∧ n ≤ s.pb.len := by
  simp only [State.dotInvalid, Bool.or_eq_false_iff, decide_eq_false_iff_not, BitVec.not_lt, and_assoc,
    ne_eq]

/-- The check of R121 fails. -/
theorem dotInvalid_eq_true {s : State} {n : Word} :
    s.dotInvalid n = true ↔ n = 0#32 ∨ s.pa.len < n ∨ s.pb.len < n := by
  simp only [State.dotInvalid, Bool.or_eq_true, decide_eq_true_eq, or_assoc]

/-- What an instruction answers when it gives a next state: a `MUL` or `DOT` waits, errs, runs or is
accepted; the micro-operations write one register. -/
theorem exec_dot_cases {n x : Word} {s t : State} (h : exec (.dot n x) s = .next t) :
    (s.busy = true ∧ t = s.present (encode (.dot n x))) ∨
    (s.busy = false ∧ s.dotInvalid n = true ∧ t = s.responded .invalidArgument) ∨
    (s.busy = false ∧ s.dotInvalid n = false ∧ (s.pa.answers && s.pb.answers) = false ∧
      t = s.accepted 0b10#2 n x) ∨
    (s.busy = false ∧ s.dotInvalid n = false ∧ (s.pa.answers && s.pb.answers) = true ∧
      dotRun Config.params n (s.accepted 0b10#2 n x) = .next t) := by
  change dotAt Config.params n x s = _ at h
  unfold dotAt at h
  cases hb : s.busy <;> cases hd : s.dotInvalid n <;> cases ha : (s.pa.answers && s.pb.answers) <;>
    simp_all [raiseError, ErrorCode.response]

end Sys2Proof.Machine
end

