-- ==== Sys2Proof/Laws/Dot.lean ====
section
/-! SUPPORT. What the loop of `DOT` does (43_dot.md R122): one lemma, by induction on the pairs left. -/

namespace Sys2Proof.Machine

/-- The indices of the loop, in order: `k`, ..., 1. -/
def loopOrder (k : Nat) : List Word := ((List.range k).map fun j => BitVec.ofNat 32 (j + 1)).reverse

theorem loopOrder_succ (k : Nat) : loopOrder (k + 1) = BitVec.ofNat 32 (k + 1) :: loopOrder k := by
  simp [loopOrder, List.range_succ]

theorem readOrder_eq (n : Nat) : readOrder n = 0#32 :: loopOrder (n - 1) := rfl

/-- A product enters the accumulator as its exact integer does. -/
theorem ofInt_add_wideProduct (z : Int) (a b : Word) :
    BitVec.ofInt 64 z + wideProduct a b = BitVec.ofInt 64 (z + a.toInt * b.toInt) := by
  rw [wideProduct_eq_ofInt, BitVec.ofInt_add]

/-- The loop adds the products of the pairs `k` down to 1, reads each once, and leaves `IDX` at 0. -/
theorem dotLoop_eq {p : Params} (hp : p.accOverflow = .wrap) (k : Nat) (hk : k < 2 ^ 32) :
    ∀ (s : State) (z : Int), s.acc = some (BitVec.ofInt 64 z) → k < s.pa.len.toNat →
      k < s.pb.len.toNat →
      dotLoop p k s = .next { s with
        acc := some (BitVec.ofInt 64 (z + (Finset.Ico 1 (k + 1)).sum fun j => s.pa.elemInt j * s.pb.elemInt j)),
        idx := if k = 0 then s.idx else some 0#32,
        pa := { s.pa with reads := s.pa.reads ++ loopOrder k },
        pb := { s.pb with reads := s.pb.reads ++ loopOrder k } } := by
  induction k with
  | zero =>
    intro s z hz _ _
    cases s
    simp_all [dotLoop, loopOrder]
  | succ k ih =>
    intro s z hz ha hb
    have hi : (BitVec.ofNat 32 (k + 1)).toNat = k + 1 := by simp; omega
    rw [dotLoop, withPair_eq _ (by rw [BitVec.lt_def, hi]; exact ha) (by rw [BitVec.lt_def, hi]; exact hb),
      wmacAt_wrap hp (acc := BitVec.ofInt 64 z) _ _ (by simpa using hz), andThen_next, hi, ofInt_add_wideProduct,
      ih (by omega) _ _ rfl (by simpa using Nat.lt_of_succ_lt ha) (by simpa using Nat.lt_of_succ_lt hb)]
    rw [Finset.sum_Ico_succ_top (by omega : 1 ≤ k + 1), loopOrder_succ]
    have hsum : z + (elemAt s.pa.elems (k + 1)).toInt * (elemAt s.pb.elems (k + 1)).toInt +
        ((Finset.Ico 1 (k + 1)).sum fun j => s.pa.elemInt j * s.pb.elemInt j) =
        z + (((Finset.Ico 1 (k + 1)).sum fun j => s.pa.elemInt j * s.pb.elemInt j) +
          s.pa.elemInt (k + 1) * s.pb.elemInt (k + 1)) := by
      simp only [Port.elemInt]; ring
    by_cases hk0 : k = 0
    · subst hk0; simp_all [Port.logged, Port.elemInt]
    · simp [hk0, Port.logged, Port.elemInt] at hsum ⊢; rw [hsum]

end Sys2Proof.Machine
end

