-- ==== Sys2Proof/Laws/Encoding.lean ====
section
/-! SUPPORT. The three fields of a word, packed and read back (30_encoding.md R61, R66). -/

namespace Sys2Proof

theorem op_pack (op : BitVec 2) (a b : Word) : OpWord.op (OpWord.pack op a b) = op := by
  have h : (op ++ (a ++ b) : BitVec (2 + (32 + 32))).extractLsb' 64 2 = op := by
    rw [BitVec.extractLsb'_append_eq_of_le (by decide)]; simp
  exact h

theorem fieldA_pack (op : BitVec 2) (a b : Word) : OpWord.fieldA (OpWord.pack op a b) = a := by
  have h : (op ++ (a ++ b) : BitVec (2 + (32 + 32))).extractLsb' 32 32 = a := by
    rw [BitVec.extractLsb'_append_eq_of_add_le (by decide),
      BitVec.extractLsb'_append_eq_of_le (by decide)]; simp
  exact h

theorem fieldB_pack (op : BitVec 2) (a b : Word) : OpWord.fieldB (OpWord.pack op a b) = b := by
  have h : (op ++ (a ++ b) : BitVec (2 + (32 + 32))).extractLsb' 0 32 = b := by
    rw [BitVec.extractLsb'_append_eq_of_add_le (by decide),
      BitVec.extractLsb'_append_eq_of_add_le (by decide)]; simp
  exact h

/-- A word is its three fields. -/
theorem pack_fields (w : OpWord) :
    OpWord.pack (OpWord.op w) (OpWord.fieldA w) (OpWord.fieldB w) = w := by
  have h : (w.extractLsb' 64 2 ++ (w.extractLsb' 32 32 ++ w.extractLsb' 0 32) :
      BitVec (2 + (32 + 32))) = w := by
    rw [BitVec.extractLsb'_append_extractLsb'_eq_extractLsb' (by decide),
      BitVec.extractLsb'_append_extractLsb'_eq_extractLsb' (by decide)]
    simp
  exact h

end Sys2Proof
end

