-- ==== Sys2Proof/Laws/PerInstr.lean ====
section
/-! SUPPORT. Per instruction: the word an instruction encodes to lies in its row of the opcode table
(spec/opcode_table.json, 30_encoding.md R73): under the row's mask it is the row's match. -/

namespace Sys2Proof.Laws.TableRow

/-- The mask of every row: the two bits of the code. -/
def mask : OpWord := 0x30000000000000000#66

/-- The match of an instruction's row. -/
def rowMatch : Instr → OpWord
  | .mul _ _    => 0x10000000000000000#66
  | .dot _ _    => 0x20000000000000000#66
  | .wmul _ _   => 0x10000000000000000#66
  | .wmac _ _   => 0x20000000000000000#66
  | .narrow _ _ => 0x30000000000000000#66

/-- The word of `i` lies in the row of `i`. -/
def Statement (i : Instr) : Prop := encode i &&& mask = rowMatch i

theorem masked_pack (op : BitVec 2) (a b : Word) :
    OpWord.pack op a b &&& mask = OpWord.pack op 0#32 0#32 := by
  rw [← pack_fields (OpWord.pack op a b &&& mask)]
  have h1 : OpWord.op (OpWord.pack op a b &&& mask) = op := by
    have : OpWord.op (OpWord.pack op a b &&& mask) = OpWord.op (OpWord.pack op a b) &&& OpWord.op mask := by
      simp [OpWord.op, BitVec.extractLsb'_and]
    rw [this, op_pack, show OpWord.op mask = BitVec.allOnes 2 by decide, BitVec.and_allOnes]
  have h2 : OpWord.fieldA (OpWord.pack op a b &&& mask) = 0#32 := by
    have : OpWord.fieldA (OpWord.pack op a b &&& mask) =
        OpWord.fieldA (OpWord.pack op a b) &&& OpWord.fieldA mask := by
      simp [OpWord.fieldA, BitVec.extractLsb'_and]
    rw [this, show OpWord.fieldA mask = 0#32 by decide, BitVec.and_zero]
  have h3 : OpWord.fieldB (OpWord.pack op a b &&& mask) = 0#32 := by
    have : OpWord.fieldB (OpWord.pack op a b &&& mask) =
        OpWord.fieldB (OpWord.pack op a b) &&& OpWord.fieldB mask := by
      simp [OpWord.fieldB, BitVec.extractLsb'_and]
    rw [this, show OpWord.fieldB mask = 0#32 by decide, BitVec.and_zero]
  rw [h1, h2, h3]

theorem mul (a b : Word) : Statement (.mul a b) := (masked_pack _ a b).trans rfl
theorem dot (n x : Word) : Statement (.dot n x) := (masked_pack _ n x).trans rfl
theorem wmul (ua ub : Word) : Statement (.wmul ua ub) := (masked_pack _ ua ub).trans rfl
theorem wmac (ua ub : Word) : Statement (.wmac ua ub) := (masked_pack _ ua ub).trans rfl
theorem narrow (ua ub : Word) : Statement (.narrow ua ub) := (masked_pack _ ua ub).trans rfl

end Sys2Proof.Laws.TableRow
end

