-- ==== Sys2Proof/Laws/Step.lean ====
section
/-! SUPPORT. What a step finds to do, one lemma per situation. -/

namespace Sys2Proof.Machine

/-- The meanings of `exec` are those of the machine with its arguments written out. -/
theorem exec_eq_execAt (i : Instr) (s : State) : exec i s = execAt Config.params i s := by
  cases i <;> rfl

theorem step_eq_stepAt (s : State) : step s = stepAt Config.params s := by
  unfold step stepAt fetch
  cases fetchAt Config.params s with
  | run i s' => exact exec_eq_execAt i s'
  | done o => rfl

/-! ## Issuing a micro-operation always reaches the datapath -/

theorem issue_wmul (a b : Word) (s : State) : issue (.wmul a b) s = .run (.wmul a b) s := by
  simp [issue, encode, decodeUop, op_pack, fieldA_pack, fieldB_pack]

theorem issue_wmac (a b : Word) (s : State) : issue (.wmac a b) s = .run (.wmac a b) s := by
  simp [issue, encode, decodeUop, op_pack, fieldA_pack, fieldB_pack]

theorem issue_narrow (s : State) : issue .asmNarrow s = .run .asmNarrow s := by
  simp [issue, Instr.asmNarrow, encode, decodeUop, op_pack, fieldA_pack, fieldB_pack]

/-! ## Whose move it is -/

theorem fetchAt_block {s : State} (p : Params) (hb : s.busy = true) (h : s.BlockMoves) :
    fetchAt p s = commandTurn p (s.withMoves s.moves.tail) := by
  obtain h | ⟨ms, h | h⟩ := h <;> rw [fetchAt] <;> simp [h, makeMove, wholeCommand, turn, hb]
  rw [← h, State.withMoves_moves_self]

theorem fetchAt_whole {s : State} (p : Params) (h : s.moves = [] ∨ ∃ ms, s.moves = .whole :: ms) :
    fetchAt p s = wholeCommand p (s.withMoves s.moves.tail) := by
  obtain h | ⟨ms, h⟩ := h <;> rw [fetchAt] <;> simp [h, makeMove]
  rw [← h, State.withMoves_moves_self]

/-! ## Reading a port -/

theorem readPort_silent {s : State} {q : PortId} (i : Word) (h : (s.port q).answers = false) :
    readPort q i s = .next s := by simp [readPort, h]

theorem readPort_eq {s : State} {q : PortId} {i : Word} (h : (s.port q).answers = true)
    (hi : i < (s.port q).len) :
    readPort q i s = .next (s.latchElem q i (elemAt (s.port q).elems i.toNat)) := by
  simp [readPort, h, Port.elem?_of_lt hi]

/-- A read that answers has either waited or latched one element of the bound sequence. -/
theorem readPort_next {s t : State} {q : PortId} {i : Word} (h : readPort q i s = .next t) :
    t = s ∨ (i < (s.port q).len ∧ t = s.latchElem q i (elemAt (s.port q).elems i.toNat)) := by
  unfold readPort Port.elem? at h
  split at h
  · split at h
    · rename_i v hv
      split at hv
      · rename_i hi; right; simp_all
      · cases hv
    · cases h
  · left; simpa using h.symm

/-! ## The inversion lemma of the sequencer -/

/-- What one turn spent on the reads of the pair of index `i` can do: wait, or latch the element of one port
or of both. -/
inductive PairRead (s : State) (i : Word) : State → Prop
  | waits : PairRead s i s
  | readA (h : i < s.pa.len) (hx : s.x = none) :
      PairRead s i (s.latchElem .pa i (elemAt s.pa.elems i.toNat))
  | readB (h : i < s.pb.len) (hy : s.y = none) :
      PairRead s i (s.latchElem .pb i (elemAt s.pb.elems i.toNat))
  | readBoth (ha : i < s.pa.len) (hb : i < s.pb.len) (hx : s.x = none) (hy : s.y = none) :
      PairRead s i ((s.latchElem .pa i (elemAt s.pa.elems i.toNat)).latchElem .pb i (elemAt s.pb.elems i.toNat))

theorem pairRead_of_readPort_pa {s t : State} {i : Word} (hx : s.x = none) (h : readPort .pa i s = .next t) :
    PairRead s i t := by
  obtain rfl | ⟨hi, rfl⟩ := readPort_next h
  · exact .waits
  · exact .readA hi hx

theorem pairRead_of_readPort_pb {s t : State} {i : Word} (hy : s.y = none) (h : readPort .pb i s = .next t) :
    PairRead s i t := by
  obtain rfl | ⟨hi, rfl⟩ := readPort_next h
  · exact .waits
  · exact .readB hi hy

/-- A turn on a pair either runs the consuming micro-operation or reads. -/
theorem pairTurn_cases (p : Params) (i : Word) (s : State) (k : Word → Word → Fetched) :
    (∃ x y, s.x = some x ∧ s.y = some y ∧ pairTurn p i s k = k x y) ∨
    (∃ o, pairTurn p i s k = .done o ∧ ∀ t, o = .next t → PairRead s i t) := by
  unfold pairTurn
  cases hx : s.x with
  | some x =>
    cases hy : s.y with
    | some y => exact .inl ⟨x, y, rfl, rfl, rfl⟩
    | none => exact .inr ⟨_, rfl, fun t h => pairRead_of_readPort_pb hy h⟩
  | none =>
    refine .inr ?_
    cases hy : s.y with
    | some y => exact ⟨_, rfl, fun t h => pairRead_of_readPort_pa hx h⟩
    | none =>
      cases p.pairOrder s.readCount with
      | aFirst => exact ⟨_, rfl, fun t h => pairRead_of_readPort_pa hx h⟩
      | bFirst => exact ⟨_, rfl, fun t h => pairRead_of_readPort_pb hy h⟩
      | together =>
        refine ⟨_, rfl, fun t h => ?_⟩
        obtain ⟨u, h1, h2⟩ := andThen_eq_next.1 h
        obtain rfl | ⟨ha, rfl⟩ := readPort_next h1
        · exact pairRead_of_readPort_pb hy h2
        · obtain rfl | ⟨hb, rfl⟩ := readPort_next h2
          · exact .readA ha hx
          · exact .readBoth ha hb hx hy

/-- What one turn of a running command can do (R111, R122). -/
inductive TurnResult (s : State) : State → Prop
  | responds (v : Word) (hr : s.res = some v) : TurnResult s (s.responded (.ok v))
  | rejects (c : BitVec 2) (hr : s.res = none) (ho : s.opl = some c) (h1 : c ≠ 0b01#2) (h2 : c ≠ 0b10#2) :
      TurnResult s (s.responded .invalidCommand)
  | narrows (acc : Wide) (hr : s.res = none) (ha : s.acc = some acc)
      (ho : s.opl = some 0b01#2 ∨ s.opl = some 0b10#2 ∧ s.idx = some 0#32) :
      TurnResult s (s.withRes (narrowed Config.build acc))
  | multiplies (a b : Word) (hr : s.res = none) (ha : s.acc = none) (ho : s.opl = some 0b01#2)
      (hla : s.la = some a) (hlb : s.lb = some b) : TurnResult s (s.withAcc (wideProduct a b))
  | startsSum (n x y : Word) (hr : s.res = none) (ha : s.acc = none) (ho : s.opl = some 0b10#2)
      (hc : s.cnt = some n) (hx : s.x = some x) (hy : s.y = some y) :
      TurnResult s ((s.consumedPair (n - 1#32)).withAcc (wideProduct x y))
  | accumulates (acc : Wide) (i x y : Word) (hr : s.res = none) (ha : s.acc = some acc)
      (ho : s.opl = some 0b10#2) (hi : s.idx = some i) (hi0 : i ≠ 0#32) (hx : s.x = some x) (hy : s.y = some y) :
      TurnResult s ((s.consumedPair (i - 1#32)).withAcc (acc + wideProduct x y))
  | readsFirst (n : Word) (t : State) (hr : s.res = none) (ha : s.acc = none) (ho : s.opl = some 0b10#2)
      (hc : s.cnt = some n) (h : PairRead s 0#32 t) : TurnResult s t
  | readsNext (acc : Wide) (i : Word) (t : State) (hr : s.res = none) (ha : s.acc = some acc)
      (ho : s.opl = some 0b10#2) (hi : s.idx = some i) (hi0 : i ≠ 0#32) (h : PairRead s i t) : TurnResult s t

/-- The answer of a step once its fetch is known. -/
def finish : Fetched → Result
  | .run i s => exec i s
  | .done o  => o

theorem step_eq_finish (s : State) : step s = finish (fetchAt Config.params s) := by
  unfold step fetch finish; cases fetchAt Config.params s <;> rfl

@[simp] theorem readSeq_some {α : Type} (v : α) (f : α → Fetched) : readSeq (some v) f = f v := rfl

/-- A read of a sequencer register that goes on to a next state had a value. -/
theorem readSeq_cases {α : Type} {r : Option α} {f : α → Fetched} {t : State}
    (h : finish (readSeq r f) = .next t) : ∃ v, r = some v ∧ finish (f v) = .next t := by
  cases r with
  | none => cases h
  | some v => exact ⟨v, rfl, h⟩

/-- Issuing `NARROW` writes `RES`. -/
theorem issue_narrow_cases {s t : State} {acc : Wide} (ha : s.acc = some acc)
    (h : finish (issue .asmNarrow s) = .next t) : t = s.withRes (narrowed Config.build acc) := by
  rw [issue_narrow] at h
  have h' : narrowAt Config.params s = .next t := h
  rw [narrowAt_eq _ ha] at h'
  cases h'; rfl

theorem mulTurn_cases {s t : State} (hr : s.res = none) (ho : s.opl = some 0b01#2)
    (h : finish (mulTurn s) = .next t) : TurnResult s t := by
  unfold mulTurn at h
  cases ha : s.acc with
  | some acc => rw [ha] at h; rw [issue_narrow_cases ha h]; exact .narrows acc hr ha (.inl ho)
  | none =>
    rw [ha] at h
    obtain ⟨a, hla, h⟩ := readSeq_cases h
    obtain ⟨b, hlb, h⟩ := readSeq_cases h
    rw [issue_wmul] at h
    cases (h : execWmul a b s = .next t)
    exact .multiplies a b hr ha ho hla hlb

theorem dotTurn_cases {s t : State} (hr : s.res = none) (ho : s.opl = some 0b10#2)
    (h : finish (dotTurn Config.params s) = .next t) : TurnResult s t := by
  unfold dotTurn at h
  cases ha : s.acc with
  | none =>
    rw [ha] at h
    obtain ⟨n, hc, h⟩ := readSeq_cases h
    obtain ⟨x, y, hx, hy, hk⟩ | ⟨o, hk, hp⟩ := pairTurn_cases Config.params 0#32 s fun x y =>
      issue (.wmul x y) (s.consumedPair (n - 1#32))
    · rw [hk, issue_wmul] at h
      cases (h : execWmul x y _ = .next t)
      exact .startsSum n x y hr ha ho hc hx hy
    · rw [hk] at h
      exact .readsFirst n t hr ha ho hc (hp t h)
  | some acc =>
    rw [ha] at h
    obtain ⟨i, hi, h⟩ := readSeq_cases h
    by_cases hi0 : i = 0#32
    · rw [if_pos hi0] at h
      rw [issue_narrow_cases ha h]; exact .narrows acc hr ha (.inr ⟨ho, hi0 ▸ hi⟩)
    · rw [if_neg hi0] at h
      obtain ⟨x, y, hx, hy, hk⟩ | ⟨o, hk, hp⟩ := pairTurn_cases Config.params i s fun x y =>
        issue (.wmac x y) (s.consumedPair (i - 1#32))
      · rw [hk, issue_wmac] at h
        have h' : wmacAt Config.params x y (s.consumedPair (i - 1#32)) = .next t := h
        rw [wmacAt_wrap rfl (acc := acc) x y (by simpa using ha)] at h'
        cases h'; exact .accumulates acc i x y hr ha ho hi hi0 hx hy
      · rw [hk] at h
        exact .readsNext acc i t hr ha ho hi hi0 (hp t h)

/-- The inversion lemma of the sequencer: everything a turn of a running command can do. -/
theorem commandTurn_cases {s t : State} (h : finish (commandTurn Config.params s) = .next t) :
    TurnResult s t := by
  unfold commandTurn at h
  cases hr : s.res with
  | some v => rw [hr] at h; cases h; exact .responds v hr
  | none =>
    rw [hr] at h
    obtain ⟨c, ho, h⟩ := readSeq_cases h
    split at h
    · rename_i h1; exact mulTurn_cases hr (h1 ▸ ho) h
    · split at h
      · rename_i h2; exact dotTurn_cases hr (h2 ▸ ho) h
      · rename_i h1 h2; cases h; exact .rejects c hr ho h1 h2

/-! ## The inversion lemma of a step -/

/-- A decoded request is a command. -/
theorem decodeRequest_instr {w : OpWord} {i : Instr} (h : decodeRequest w = .instr i) :
    (∃ a b, i = .mul a b) ∨ ∃ n x, i = .dot n x := by
  unfold decodeRequest at h
  split at h
  · cases h; exact .inl ⟨_, _, rfl⟩
  · split at h
    · cases h; exact .inr ⟨_, _, rfl⟩
    · cases h

theorem decodeRequest_ne_never (w : OpWord) : decodeRequest w ≠ .microOpNeverIssued := by
  unfold decodeRequest; split
  · simp
  · split <;> simp

/-- The acceptance of a request in small steps: latched, or answered with an error at once. -/
theorem accept_cases {w : OpWord} {s t : State} (h : accept w s = .next t) :
    (OpWord.op w = 0b01#2 ∧ t = s.accepted 0b01#2 (OpWord.fieldA w) (OpWord.fieldB w)) ∨
    (OpWord.op w = 0b10#2 ∧ s.dotInvalid (OpWord.fieldA w) = false ∧
      t = s.accepted 0b10#2 (OpWord.fieldA w) (OpWord.fieldB w)) ∨
    ∃ r : Response, r.isOk = false ∧ t = s.responded r := by
  unfold accept raiseError at h
  split at h
  · cases h; exact .inl ⟨‹_›, rfl⟩
  · split at h
    · split at h
      · cases h; exact .inr (.inr ⟨_, rfl, rfl⟩)
      · rename_i ho hd; cases h; exact .inr (.inl ⟨ho, eq_false_of_ne_true hd, rfl⟩)
    · cases h; exact .inr (.inr ⟨_, rfl, rfl⟩)

/-- What one step can do to the state `u` from which its move has been taken off the list. -/
inductive StepResult (m : Option Move) (u : State) : State → Prop
  | runs (t : State) (hb : u.busy = true) (h : TurnResult u t) : StepResult m u t
  | rests (hb : u.busy = false) (hr : u.requests = []) : StepResult m u u
  | accepts (w : OpWord) (ws : List OpWord) (t : State) (hb : u.busy = false) (hr : u.requests = w :: ws)
      (h : accept w (u.withRequests ws) = .next t) : StepResult m u t
  | rejects (w : OpWord) (ws : List OpWord) (hb : u.busy = false) (hr : u.requests = w :: ws) :
      StepResult m u ((u.withRequests ws).responded .invalidCommand)
  | commands (w : OpWord) (ws : List OpWord) (i : Instr) (t : State) (hb : u.busy = false)
      (hr : u.requests = w :: ws) (hd : decodeRequest w = .instr i)
      (h : exec i (u.withRequests ws) = .next t) : StepResult m u t
  | presents (w : OpWord) (hm : m = some (.present w)) : StepResult m u (u.present w)
  | binds (q : PortId) (len : Word) (elems : List (Nat × Word)) (hm : m = some (.bind q len elems)) :
      StepResult m u (u.setPort q ((u.port q).rebind len elems))
  | stores (ws : List (PortId × Word × Word)) (hm : m = some (.store ws)) : StepResult m u (u.storeElems ws)
  | answers (q : PortId) (on : Bool) (hm : m = some (.answer q on)) :
      StepResult m u (u.setPort q { u.port q with answers := on })
  | resets (hm : m = some .reset) : StepResult m u u.idle

theorem wholeCommand_cases {u t : State} (m : Option Move)
    (h : finish (wholeCommand Config.params u) = .next t) : StepResult m u t := by
  unfold wholeCommand at h
  cases hb : u.busy with
  | true => rw [hb] at h; exact .runs t hb (commandTurn_cases h)
  | false =>
    rw [hb] at h
    cases hr : u.requests with
    | nil => rw [hr] at h; cases h; exact .rests hb hr
    | cons w ws =>
      rw [hr] at h
      cases hd : decodeRequest w with
      | instr i => simp only [hd] at h; exact .commands w ws i t hb hr hd h
      | reservedRequest op => simp only [hd] at h; cases h; exact .rejects w ws hb hr
      | microOpNeverIssued => exact absurd hd (decodeRequest_ne_never w)

theorem turn_cases {u t : State} (m : Option Move) (h : finish (turn Config.params u) = .next t) :
    StepResult m u t := by
  unfold turn at h
  cases hb : u.busy with
  | true => rw [hb] at h; exact .runs t hb (commandTurn_cases h)
  | false =>
    rw [hb] at h
    cases hr : u.requests with
    | nil => rw [hr] at h; cases h; exact .rests hb hr
    | cons w ws => rw [hr] at h; exact .accepts w ws t hb hr h

/-- The inversion lemma of the machine: everything one step can do. -/
theorem step_cases {s t : State} (h : step s = .next t) :
    StepResult s.moves.head? (s.withMoves s.moves.tail) t := by
  rw [step_eq_finish, fetchAt] at h
  cases hm : s.moves with
  | nil =>
    rw [hm] at h
    rw [show s.withMoves ([] : List Move).tail = s by rw [List.tail_nil, ← hm, State.withMoves_moves_self]]
    exact wholeCommand_cases _ h
  | cons m ms =>
    rw [hm] at h
    simp only [List.head?_cons, List.tail_cons]
    cases m with
    | turn => exact turn_cases _ h
    | whole => exact wholeCommand_cases _ h
    | present w => cases h; exact .presents w rfl
    | bind q len elems => cases h; exact .binds q len elems rfl
    | store ws => cases h; exact .stores ws rfl
    | answer q on => cases h; exact .answers q on rfl
    | reset => cases h; exact .resets rfl

/-! ## Runs -/

theorem coreRun_succ (M : Host.Core) (k : Nat) (s : M.State) :
    M.run (k + 1) s =
      match M.step s with
      | .next t    => M.run k t
      | .fault r   => .fault r
      | .refused r => .refused r := rfl

@[simp] theorem runSteps_zero (s : State) : runSteps 0 s = .next s := rfl

theorem runSteps_succ (k : Nat) (s : State) : runSteps (k + 1) s = andThen (step s) (runSteps k) := by
  have h := coreRun_succ Sys2Proof.core k s
  have h' : Sys2Proof.core.step s = step s := rfl
  rw [h'] at h
  refine Eq.trans h ?_
  cases step s <;> rfl

/-- A turn the world grants the block is the block's turn. -/
theorem step_turn (s : State) (ms : List Move) :
    step (s.withMoves (.turn :: ms)) = finish (turn Config.params (s.withMoves ms)) := by
  rw [step_eq_finish]; rfl

/-- Turns granted to an idle block with nothing presented leave it as it is. -/
theorem runSteps_rest (m : Nat) (s : State) (hb : s.busy = false) (hr : s.requests = []) :
    runSteps m (s.withMoves (List.replicate m .turn)) = .next (s.withMoves []) := by
  induction m with
  | zero => rfl
  | succ m ih =>
    rw [List.replicate_succ, runSteps_succ, step_turn]
    simpa [turn, hb, hr, finish] using ih

end Sys2Proof.Machine
end

