-- ==== Sys2Proof/Tests/Slice0.lean ====
section
/-! SUPPORT. Tests: words and vectors of the spec (95_test_vectors.md, 41_narrow.md R104), and for every
statement with hypotheses a state that meets them. Expected values are the spec's. -/

namespace Sys2Proof.Tests

open Sys2Proof Sys2Proof.Machine

/-! ## Small states and views -/

/-- The machine's arguments for a build, the pair order alternating between the two. -/
def args (b : Build) : Params := ⟨b, .wrap, fun n => if n % 4 = 0 then .aFirst else .bFirst⟩

/-- The stricter reading of an accumulator overflow. -/
def strict (b : Build) : Params := ⟨b, .fault, fun _ => .together⟩

/-- A port with the listed elements bound. -/
def bound (l : List Word) : Port :=
  Port.unbound.rebind (BitVec.ofNat 32 l.length) (l.zipIdx.map fun e => (e.2, e.1))

/-- An idle block with two sequences bound. -/
def idleWith (a b : List Word) : State := { State.reset with pa := bound a, pb := bound b }

/-- That block with a request presented. -/
def asked (a b : List Word) (w : OpWord) : State := { idleWith a b with requests := [w] }

def responsesOf : Result → Option (List Response)
  | .next s    => some s.responses
  | .fault _   => none
  | .refused _ => none

def accOf : Result → Option Wide
  | .next s    => s.acc
  | .fault _   => none
  | .refused _ => none

def readsOf : Result → Option (List Word × List Word)
  | .next s    => some (s.pa.reads, s.pb.reads)
  | .fault _   => none
  | .refused _ => none

def faultOf : Result → Option Fault
  | .next _    => none
  | .fault f   => some f
  | .refused _ => none

/-! ## WellFormed refuses -/

theorem test_wellFormed_refuses_microOp_as_request : (Instr.wmul 1#32 2#32).wellFormed .request = false := by decide
theorem test_wellFormed_refuses_command_as_microOp : (Instr.mul 1#32 2#32).wellFormed .microOp = false := by decide
theorem test_wellFormed_refuses_dot_with_b_field : (Instr.dot 3#32 5#32).wellFormed .request = false := by decide
theorem test_wellFormed_refuses_narrow_with_operand : (Instr.narrow 0#32 1#32).wellFormed .microOp = false := by decide
theorem test_wellFormed_accepts_dot : (Instr.asmDot 3#32).wellFormed .request = true := by decide
theorem test_port_wf_refuses_a_zero_entry : Port.wf { bound [1#32] with elems := [(0, 0#32)] } = false := by decide
theorem test_port_wf_refuses_falling_indices :
    Port.wf { bound [1#32, 2#32] with elems := [(1, 2#32), (0, 1#32)] } = false := by decide
theorem test_port_wf_refuses_an_index_outside : Port.wf { bound [1#32] with elems := [(1, 2#32)] } = false := by decide

/-! ## Decoding words written out bit by bit (R61, R66) -/

/-- W1: `uop = 01`, -3, 16384. -/
theorem test_decode_wmul : decodeUop (0b01#2 ++ (0b11111111111111111111111111111101#32 ++
    0b00000000000000000100000000000000#32)) = .instr (.wmul (-3#32) 16384#32) := by decide
/-- W4: `uop = 10`. -/
theorem test_decode_wmac : decodeUop 0x20000400000000001#66 = .instr (.wmac 0x4000#32 1#32) := by decide
/-- W9: `uop = 11`, the fields ignored. -/
theorem test_decode_narrow : decodeUop 0x30000000000000000#66 = .instr .asmNarrow := by decide
theorem test_decode_uop_00 : decodeUop 0x00000000100000001#66 = .microOpNeverIssued := by decide
/-- V5 (F = 15): `op = 01`. -/
theorem test_decode_mul : decodeRequest (0b01#2 ++ (0b00000000000000001000000000000000#32 ++
    0b00000000000000001000000000000000#32)) = .instr (.mul 0x8000#32 0x8000#32) := by decide
/-- V37: `op = 10`, the b field kept as it stands. -/
theorem test_decode_dot : decodeRequest 0x200000002DEADBEEF#66 = .instr (.dot 2#32 0xDEADBEEF#32) := by decide
/-- V38, V39: the reserved codes. -/
theorem test_decode_reserved : decodeRequest 0x00000800000010000#66 = .reservedRequest 0b00#2 ∧
    decodeRequest 0x30000000100000000#66 = .reservedRequest 0b11#2 := by decide
/-- The bare words of the opcode table (log entry 12). -/
theorem test_decodeTableWord :
    decodeTableWord 72 0x10000000500000003 = some (.mul 5#32 3#32) ∧
    decodeTableWord 72 0x20000000300000000 = some (.dot 3#32 0#32) ∧
    decodeTableWord 72 0x30000000000000000 = some (.narrow 0#32 0#32) ∧
    decodeTableWord 72 0x00000000500000003 = none ∧ decodeTableWord 72 0x400000000000000000 = none := by decide
/-- Placed after reset, a request of `MUL` is answered and a `NARROW` runs (log entry 12). -/
theorem test_withFetchWord :
    (responsesOf (stepAt (args .f15) (State.reset.withFetchWord 72 0x10000800000010000))) = some [.ok 0x00010000#32] ∧
    (match stepAt (args .f15) (State.reset.withFetchWord 72 0x30000000000000000) with
      | .next s => s.res | .fault _ => none | .refused _ => none) = some 0#32 := by decide
/-- Response words (R65): `OK(0x00010000)` is `0x0_00010000`; `status = 11` reads as nothing. -/
theorem test_response_words :
    (Response.ok 0x00010000#32).word 0#32 = 0x000010000#34 ∧
    decodeResponse 0x1DEADBEEF#34 = some .invalidArgument ∧
    decodeResponse 0x200000000#34 = some .invalidCommand ∧ decodeResponse 0x300000000#34 = none := by decide

/-! ## The datapath -/

/-- R25 and S10. -/
theorem test_constants : kOne .f15 = 0x8000#32 ∧ kTwo .f15 = 0x10000#32 ∧ kOne .f19 = 0x80000#32 ∧
    kTwo .f19 = 0x100000#32 ∧ kZero .f15 = 0#32 := by decide

/-- R104, the column of `F = 15`. -/
theorem test_narrow_f15 :
    [0x0#64, 0x7FFF#64, 0x8000#64, 0x80000#64, 0xFFFFFFFFFFFFFFFF#64, 0xFFFFFFFFFFFF8000#64, 0xFFFFFFFFFFFF7FFF#64,
      0x00003FFFFFFFFFFF#64, 0x0000400000000000#64, 0x0004000000000000#64, 0xFFFFC00000000000#64,
      0xFFFFBFFFFFFFFFFF#64, 0x4000000000000000#64, 0x7FFFFFFFFFFFFFFF#64, 0x8000000000000000#64].map (narrowed .f15)
    = [0#32, 0#32, 1#32, 0x10#32, 0xFFFFFFFF#32, 0xFFFFFFFF#32, 0xFFFFFFFE#32, 0x7FFFFFFF#32, 0x80000000#32, 0#32,
      0x80000000#32, 0x7FFFFFFF#32, 0#32, 0xFFFFFFFF#32, 0#32] := by decide

/-- R104, the column of `F = 19`. -/
theorem test_narrow_f19 :
    [0x0#64, 0x7FFF#64, 0x8000#64, 0x80000#64, 0xFFFFFFFFFFFFFFFF#64, 0xFFFFFFFFFFFF8000#64, 0xFFFFFFFFFFFF7FFF#64,
      0x00003FFFFFFFFFFF#64, 0x0000400000000000#64, 0x0004000000000000#64, 0xFFFFC00000000000#64,
      0xFFFFBFFFFFFFFFFF#64, 0x4000000000000000#64, 0x7FFFFFFFFFFFFFFF#64, 0x8000000000000000#64].map (narrowed .f19)
    = [0#32, 0#32, 0#32, 1#32, 0xFFFFFFFF#32, 0xFFFFFFFF#32, 0xFFFFFFFF#32, 0x07FFFFFF#32, 0x08000000#32,
      0x80000000#32, 0xF8000000#32, 0xF7FFFFFF#32, 0#32, 0xFFFFFFFF#32, 0#32] := by decide

/-- W1 to W3. -/
theorem test_wmul : accOf (exec (.wmul 0xFFFFFFFD#32 0x4000#32) State.reset) = some 0xFFFFFFFFFFFF4000#64 ∧
    accOf (exec (.wmul 0x80000000#32 0x80000000#32) State.reset) = some 0x4000000000000000#64 ∧
    accOf (exec (.wmul 0x80000000#32 0x7FFFFFFF#32) State.reset) = some 0xC000000080000000#64 := by decide

/-- W4 to W8: the old `ACC` first. -/
theorem test_wmac :
    accOf (exec (.wmac 0x4000#32 1#32) (State.reset.withAcc 0x4000#64)) = some 0x8000#64 ∧
    accOf (exec (.wmac 0xFFFFFFFF#32 1#32) (State.reset.withAcc 1#64)) = some 0#64 ∧
    accOf (exec (.wmac 0x80000000#32 0x80000000#32) (State.reset.withAcc 0x4000000000000000#64))
      = some 0x8000000000000000#64 ∧
    accOf (exec (.wmac 0x7FFFFFFF#32 0x80000000#32) (State.reset.withAcc 0x8000000100000000#64))
      = some 0x4000000180000000#64 ∧
    accOf (exec (.wmac 0#32 0x7FFFFFFF#32) (State.reset.withAcc 0x1234567800000000#64))
      = some 0x1234567800000000#64 := by decide

/-- W6 in the reading `ACC_OVERFLOW = fault`. -/
theorem test_wmac_strict : faultOf (wmacAt (strict .f15) 0x80000000#32 0x80000000#32
    (State.reset.withAcc 0x4000000000000000#64)) = some .accOverflow := by decide

/-! ## Commands -/

/-- V7, V11, V18, V20, V22, `F = 15`. -/
theorem test_mul_f15 :
    [mulAt (args .f15) 0xFFFFFFFD#32 0x4000#32, mulAt (args .f15) 0x80000000#32 0x8000#32,
      mulAt (args .f15) 0x7FFFFFFF#32 0x7FFFFFFF#32, mulAt (args .f15) 0x80000000#32 0x7FFFFFFF#32,
      mulAt (args .f15) 0x7FFFFFFF#32 0x10000#32].map (fun f => responsesOf (f State.reset))
    = [some [.ok 0xFFFFFFFE#32], some [.ok 0x80000000#32], some [.ok 0xFFFE0000#32], some [.ok 0x00010000#32],
      some [.ok 0xFFFFFFFE#32]] := by decide

/-- V8, V13, V18, V20, V23, `F = 19`. -/
theorem test_mul_f19 :
    [mulAt (args .f19) 3#32 0xFFFC0000#32, mulAt (args .f19) 0x180000#32 0xFFF40000#32,
      mulAt (args .f19) 0x7FFFFFFF#32 0x7FFFFFFF#32, mulAt (args .f19) 0x80000000#32 0x7FFFFFFF#32,
      mulAt (args .f19) 0x40000000#32 0x100000#32].map (fun f => responsesOf (f State.reset))
    = [some [.ok 0xFFFFFFFE#32], some [.ok 0xFFDC0000#32], some [.ok 0xFFFFE000#32], some [.ok 0x00001000#32],
      some [.ok 0x80000000#32]] := by decide

/-- V25 and V28, `F = 15`: single rounding, and an accumulator overflow that cannot be seen. -/
theorem test_dot_f15 :
    responsesOf (dotAt (args .f15) 3#32 0#32
      (idleWith [0xFFFFC000#32, 0xFFFFC000#32, 0xFFFFC000#32] [1#32, 1#32, 1#32])) = some [.ok 0xFFFFFFFE#32] ∧
    responsesOf (dotAt (args .f15) 3#32 0#32
      (idleWith [0x7FFFFFFF#32, 0x7FFFFFFF#32, 0x7FFFFFFF#32] [0x80000000#32, 0x80000000#32, 0x80000000#32]))
      = some [.ok 0x00030000#32] := by decide

/-- P2, command 1 (`F = 19`), and V27 in the strict reading. -/
theorem test_dot_f19 :
    responsesOf (dotAt (args .f19) 4#32 0#32
      (idleWith [0x20000#32, 0x40000#32, 0x20000#32, 0xFFFF0000#32]
        [0x80000#32, 0xFFF40000#32, 0xA3D71#32, 7#32])) = some [.ok 0xFFFE8F5B#32] ∧
    faultOf (dotAt (strict .f19) 2#32 0#32
      (idleWith [0x80000000#32, 0x80000000#32] [0x80000000#32, 0x80000000#32])) = some .accOverflow := by decide

/-- V33 to V35 and V40: `InvalidArgument`, and no element read. -/
theorem test_dot_errors :
    [exec (.dot 0#32 0#32) (idleWith [9#32] [9#32]), exec (.dot 3#32 0#32) (idleWith [1#32, 2#32] [1#32, 2#32, 3#32]),
      exec (.dot 3#32 0#32) (idleWith [1#32, 2#32, 3#32] []),
      exec (.dot 0xFFFFFFFF#32 0#32) (idleWith [1#32] [1#32])].map (fun o => (responsesOf o, readsOf o))
    = List.replicate 4 (some [.invalidArgument], some ([], [])) := by decide

/-- V36: the elements beyond the count are not read; each of the others once, on each port. -/
theorem test_dot_reads :
    let o := dotAt (args .f15) 2#32 0#32 (idleWith [3#32, 5#32, 7#32, 7#32, 7#32] [0x4000#32, 0x4000#32])
    responsesOf o = some [.ok 4#32] ∧ readsOf o = some ([0#32, 1#32], [0#32, 1#32]) := by decide

/-- V38 and V39: reserved requests. -/
theorem test_reserved_requests :
    responsesOf (step (asked [] [] 0x00000800000010000#66)) = some [.invalidCommand] ∧
    responsesOf (step (asked [] [] 0x30000000100000000#66)) = some [.invalidCommand] := by decide

/-- V41: `MUL` after V33. -/
theorem test_errors_are_not_sticky :
    responsesOf (andThen (stepAt (args .f15) { State.reset with
      requests := [0x20000000000000000#66, 0x10000800000010000#66] }) (stepAt (args .f15)))
    = some [.invalidArgument, .ok 0x00010000#32] := by decide

/-! ## Small steps -/

/-- V26's trace after its first `WMAC`, taken in small steps: acceptance, two reads, `WMUL`, two reads,
`WMAC` of index 2. -/
theorem test_small_steps_trace :
    accOf (Host.Core.run (coreAt (args .f15)) 7 { asked [0x8000#32, 0x10000#32, 0x18000#32]
      [0x4000#32, 0x2000#32, 0xFFFF8000#32] 0x20000000300000000#66 with moves := List.replicate 7 .turn })
    = some 0xFFFFFFFF60000000#64 := by decide

/-- An element written between the two reads of a pair: the later read sees it (R55). V32 with
`b[0]` rewritten to 0 after `a[0]` was read: 2.5 units floor to 2. -/
theorem test_racing_write :
    responsesOf (Host.Core.run (coreAt (args .f15)) 10 { asked [3#32, 5#32] [0x4000#32, 0x4000#32]
      0x20000000200000000#66 with
      moves := [.turn, .turn, .store [(.pb, 0#32, 0#32)], .turn, .turn, .turn, .turn, .turn, .turn, .turn] })
    = some [.ok 2#32] := by decide

/-- Reset in the middle of a `MUL`: no response, idle (R161). -/
theorem test_reset_abandons :
    (match Host.Core.run (coreAt (args .f15)) 3 { asked [] [] 0x10000800000010000#66 with
        moves := [.turn, .turn, .reset] } with
      | .next s => some s | .fault _ => none | .refused _ => none) = some State.reset := by decide

/-- A request presented to a busy block waits (R163). -/
theorem test_busy_waits :
    (match exec (.mul 1#32 1#32) { State.reset with busy := true } with
      | .next s => some s.requests | .fault _ => none | .refused _ => none) = some [0x10000000100000001#66] := by decide

/-- A silent port leaves the `DOT` waiting for its read (U9). -/
theorem test_silent_port_waits :
    (match exec (.dot 1#32 0#32) { idleWith [1#32] [1#32] with pb := { bound [1#32] with answers := false } } with
      | .next s => some (s.busy, s.responses, s.pa.reads) | .fault _ => none | .refused _ => none)
    = some (true, [], []) := by decide

theorem test_narrow_without_value : faultOf (exec .asmNarrow State.reset) = some .accNoValue := by decide

/-! ## Witnesses: for every statement with hypotheses, a state and operands that meet them -/

/-- A `DOT` of two pairs, accepted. -/
def running : State := (idleWith [3#32, 5#32] [0x4000#32, 0x4000#32]).accepted 0b10#2 2#32 0#32

/-- The same after its `WMUL`. -/
def summing : State := (running.withAcc 0xC000#64).withIdx 1#32

/-- An idle block with `ONE` and `ZERO` on `PA`, `ONE` and `ONE` on `PB`. -/
def selecting : State := idleWith [kOne Config.build, kZero Config.build] [kOne Config.build, kOne Config.build]

/-- An idle block with three halves of a unit to sum (R95). -/
def halves : State :=
  idleWith (List.replicate 3 (1#32 <<< (Config.build.fracBits - 1))) (List.replicate 3 1#32)

theorem running_inv : running.Inv :=
  ⟨by decide, by decide, (fun h => nomatch h), fun _ => .inr ⟨2#32, by decide, by decide, by decide, by decide, by decide,
    .inl ⟨rfl, rfl, rfl⟩⟩⟩

theorem summing_inv : summing.Inv :=
  ⟨by decide, by decide, (fun h => nomatch h), fun _ => .inr ⟨2#32, by decide, by decide, by decide, by decide, by decide,
    .inr ⟨rfl, 1#32, rfl, by decide, by decide, fun _ => rfl⟩⟩⟩

theorem summing_inBounds : summing.InBounds := by
  intro n h
  cases (by simpa [summing, running] using h : 2#32 = n)
  decide

theorem keepsElements_of_nil {s : State} (h : s.moves = []) : s.KeepsElements :=
  ⟨fun _ _ _ _ h' => (by rw [h] at h'; cases h'), fun _ _ h' => (by rw [h] at h'; cases h')⟩

theorem running_block : running.BlockMoves := .inl rfl
theorem summing_block : summing.BlockMoves := .inl rfl

theorem witness_DecodeThenEncodeIsIdentity :
    decodeAs .request 0x200000002DEADBEEF#66 = .instr (.dot 2#32 0xDEADBEEF#32) ∧
    decodeAs .microOp 0x30000000000000001#66 = .instr (.narrow 0#32 1#32) := by decide

theorem witness_StepRunsThePresentedCommand :
    let s := asked [] [] 0x10000800000010000#66
    s.busy = false ∧ s.moves = [] ∧ s.requests = [0x10000800000010000#66] ∧
      decodeRequest 0x10000800000010000#66 = .instr (.mul 0x8000#32 0x10000#32) := by decide

/-- One state for each of the five clauses. -/
theorem witness_StepRunsTheIssuedMicroOp :
    let m := State.reset.accepted 0b01#2 3#32 4#32
    let d := { running with x := some 3#32, y := some 0x4000#32 }
    let e := { summing with x := some 5#32, y := some 0x4000#32 }
    (m.busy = true ∧ m.res = none ∧ m.moves = [] ∧ m.opl = some 0b01#2 ∧ m.acc = none ∧ m.la = some 3#32 ∧
      m.lb = some 4#32) ∧
    ((m.withAcc 12#64).res = none ∧ (m.withAcc 12#64).acc = some 12#64 ∧ (m.withAcc 12#64).moves = []) ∧
    (d.busy = true ∧ d.res = none ∧ d.moves = [] ∧ d.opl = some 0b10#2 ∧ d.acc = none ∧ d.cnt = some 2#32 ∧
      d.x = some 3#32 ∧ d.y = some 0x4000#32) ∧
    (e.busy = true ∧ e.res = none ∧ e.moves = [] ∧ e.opl = some 0b10#2 ∧ e.acc = some 0xC000#64 ∧
      e.idx = some 1#32 ∧ e.x = some 5#32 ∧ e.y = some 0x4000#32) ∧
    ((e.consumedPair 0#32).busy = true ∧ (e.consumedPair 0#32).idx = some 0#32 ∧ (e.consumedPair 0#32).res = none) := by
  decide

theorem witness_IdleBlockWithoutRequestStays :
    State.reset.busy = false ∧ State.reset.requests = [] ∧ State.reset.BlockMoves := ⟨rfl, rfl, .inl rfl⟩

/-- `ACC` at the values where the clauses of `NARROW` meet, for either build. -/
theorem witness_NarrowRoundsTowardNegativeInfinity :
    (∀ v : Wide, (State.reset.withAcc v).acc = some v) ∧
    ∀ b : Build,
      (-(2 : Int) ^ (31 + b.fracBits) ≤ (0#64).toInt ∧ (0#64).toInt < 2 ^ (31 + b.fracBits) ∧
        (2 : Int) ^ b.fracBits ∣ (0#64).toInt) ∧
      (-(2 : Int) ^ (31 + b.fracBits) ≤ (1#64).toInt ∧ (1#64).toInt < 2 ^ (31 + b.fracBits) ∧
        ¬ (2 : Int) ^ b.fracBits ∣ (1#64).toInt ∧ (1#64).toInt ≤ 2 ^ b.fracBits - 1) ∧
      (-(2 : Int) ^ b.fracBits + 1 ≤ (-1#64).toInt ∧ (-1#64).toInt ≤ -1 ∧
        ¬ (2 : Int) ^ b.fracBits ∣ (-1#64).toInt) := by
  refine ⟨fun _ => rfl, fun b => ?_⟩
  cases b <;> decide

theorem witness_NarrowIsFloorThenWrap : (State.reset.withAcc 0xFFFFFFFFFFFF4000#64).acc = some 0xFFFFFFFFFFFF4000#64 := rfl

/-- Inside and outside the range that does not wrap, for either build, and the example of `F = 15`. -/
theorem witness_NarrowWrapsSilently :
    (State.reset.withAcc 0x0004000000000000#64).acc = some 0x0004000000000000#64 ∧
    (∀ b : Build, ¬ (0x0004000000000000#64).toInt < 2 ^ (31 + b.fracBits)) ∧
    (args .f15).build = .f15 ∧ (State.reset.withAcc 0x0000400000000000#64).acc = some 0x0000400000000000#64 := by
  refine ⟨rfl, fun b => ?_, rfl, rfl⟩
  cases b <;> decide

theorem witness_ReadingAbsentAccFaults : State.reset.acc = none := rfl

/-- A sum inside the range and one outside. -/
theorem witness_WmacAddsTheExactProduct :
    (State.reset.withAcc 0x4000#64).acc = some 0x4000#64 ∧
    (0x4000#64).toInt + (0x4000#32).toInt * (1#32).toInt ≤ 2 ^ 63 - 1 := by decide

theorem witness_OverflowReadingsOfWmac :
    (strict .f15).accOverflow = .fault ∧ (args .f15).accOverflow = .wrap ∧
    (State.reset.withAcc 0x4000000000000000#64).acc = some 0x4000000000000000#64 ∧
    (2 : Int) ^ 63 - 1 < (0x4000000000000000#64).toInt + (0x80000000#32).toInt * (0x80000000#32).toInt ∧
    (0x8000000100000000#64).toInt + (0x7FFFFFFF#32).toInt * (0x80000000#32).toInt < -(2 : Int) ^ 63 ∧
    (0x4000000000000000#64).toInt + (1#32).toInt * (1#32).toInt ≤ 2 ^ 63 - 1 := by decide

theorem ready_two : (idleWith [3#32, 5#32] [0x4000#32, 0x4000#32]).ReadyForDot 2#32 := by
  unfold State.ReadyForDot; decide

theorem witness_TwoExtremePairsOverflow :
    let s := idleWith [0x80000000#32, 0x80000000#32] [0x80000000#32, 0x80000000#32]
    s.ReadyForDot 2#32 ∧ (strict .f15).accOverflow = .fault ∧
      ∀ i, i < 2 → elemAt s.pa.elems i = 0x80000000#32 ∧ elemAt s.pb.elems i = 0x80000000#32 := by
  unfold State.ReadyForDot; decide

theorem ready_one : (idleWith [3#32] [0x4000#32, 5#32]).ReadyForDot 1#32 := by unfold State.ReadyForDot; decide

theorem witness_SmallSumsNeverOverflow :
    let s := idleWith [3#32, 5#32] [0x4000#32, 0x4000#32]
    (strict .f15).accOverflow = .fault ∧ (args .f15).accOverflow = .wrap ∧
      (args .f15).build = (strict .f15).build ∧ s.ReadyForDot 2#32 ∧
      ((Finset.range (2#32).toNat).sum fun i => |s.pa.elemInt i * s.pb.elemInt i|) ≤ 2 ^ 63 - 1 :=
  ⟨rfl, rfl, rfl, ready_two, by decide⟩

/-- An idle block and the product of two operands. -/
theorem witness_MulDeliversItsClosedForm :
    State.reset.busy = false ∧ (0xFFFFFFFFFFFF4000#64).toInt = (0xFFFFFFFD#32).toInt * (0x4000#32).toInt := by decide

theorem witness_MulFollowsTheSignTable : State.reset.busy = false := rfl

theorem witness_LiteralScaling : State.reset.busy = false ∧ (args .f15).build = .f15 := ⟨rfl, rfl⟩

/-- Products outside the range that does not wrap, for either build, beside the one inside below. -/
theorem witness_MulWrapsOnlyOutOfRange : State.reset.busy = false ∧ ∀ b : Build,
    ¬ (0x80000000#32).toInt * (0x80000000#32).toInt < 2 ^ (31 + b.fracBits) := by
  refine ⟨rfl, fun b => ?_⟩; cases b <;> decide

theorem witness_SmallStepsReachTheWholeMul : State.reset.busy = false := rfl

/-- The range hypothesis of R87, at its lower end for either build and inside. -/
theorem witness_MulErrorIsOneSided : State.reset.busy = false ∧ ∀ b : Build,
    -(2 : Int) ^ (31 + b.fracBits) ≤ (0x80000000#32).toInt * (kOne b).toInt ∧
    (0x80000000#32).toInt * (kOne b).toInt < 2 ^ (31 + b.fracBits) := by
  refine ⟨rfl, fun b => ?_⟩; cases b <;> decide

theorem witness_MulByTheConstants : State.reset.busy = false ∧ (0x80000000#32 : Word) = 0x80000000#32 := by decide

theorem witness_MulCommutesAndDoesNotAssociate : (args .f15).build = .f15 ∧ State.reset.busy = false := by decide

theorem witness_BuildsReadTheSameWordDifferently :
    (args .f15).build = .f15 ∧ (args .f19).build = .f19 ∧ State.reset.busy = false := by decide

/-- Each of the three causes, at the first count that fails. -/
theorem witness_DotChecksItsArgument :
    let s := idleWith [1#32, 2#32] [1#32]
    s.busy = false ∧ ((0#32 : Word) = 0#32) ∧ s.pa.len < 3#32 ∧ s.pb.len < 2#32 := by decide

theorem witness_CommandsAreTheirMicroPrograms :
    State.reset.busy = false ∧ (idleWith [3#32, 5#32] [0x4000#32, 0x4000#32]).ReadyForDot 2#32 := ⟨rfl, ready_two⟩

theorem witness_DotDeliversItsClosedForm :
    (idleWith [3#32, 5#32] [0x4000#32, 0x4000#32]).ReadyForDot 2#32 := ready_two

theorem witness_DotReadsEachElementOnce :
    (idleWith [3#32, 5#32] [0x4000#32, 0x4000#32]).ReadyForDot 2#32 := ready_two

theorem witness_DotIgnoresItsBField :
    State.reset.busy = false ∧ State.reset.pa.answers = true ∧ State.reset.pb.answers = true := by decide

/-- Either port silent. -/
theorem witness_DotWaitsForASilentPort :
    let s := idleWith [1#32] [1#32]
    let quiet := fun p : Port => { p with answers := false }
    s.busy = false ∧ (1#32 : Word) ≠ 0#32 ∧ 1#32 ≤ s.pa.len ∧ 1#32 ≤ s.pb.len ∧
      (State.setPort s .pa (quiet s.pa)).pa.answers = false ∧ (State.setPort s .pb (quiet s.pb)).pb.answers = false := by
  decide

theorem witness_DotOfOneIsMul : (idleWith [3#32] [0x4000#32, 5#32]).ReadyForDot 1#32 := ready_one

theorem witness_DotSelectsATerm :
    selecting.ReadyForDot 2#32 ∧
    elemAt selecting.pa.elems 0 = kOne Config.build ∧ elemAt selecting.pa.elems 1 = kZero Config.build ∧
    elemAt selecting.pb.elems 0 = kOne Config.build ∧ elemAt selecting.pb.elems 1 = kOne Config.build := by
  unfold selecting State.ReadyForDot
  cases Config.build <;> decide

/-- The second part: the spec's example is a state. -/
theorem witness_DotRoundsOnce_example :
    halves.ReadyForDot 3#32 ∧ ∀ i, i < 3 →
      elemAt halves.pa.elems i = 1#32 <<< (Config.build.fracBits - 1) ∧ elemAt halves.pb.elems i = 1#32 := by
  unfold halves State.ReadyForDot
  cases Config.build <;> decide

/-- The first part: products at the lower end of the range and just inside the upper one, for either build. -/
theorem witness_DotRoundsOnce :
    let s := idleWith [0x7FFFFFFF#32, 0x80000000#32] [kOne Config.build, kOne Config.build]
    s.ReadyForDot 2#32 ∧
    -(2 : Int) ^ (31 + Config.build.fracBits) ≤ dotSum s.pa s.pb 2 ∧
    dotSum s.pa s.pb 2 < 2 ^ (31 + Config.build.fracBits) ∧
    ∀ i, i < 2 → -(2 : Int) ^ (31 + Config.build.fracBits) ≤ s.pa.elemInt i * s.pb.elemInt i ∧
      s.pa.elemInt i * s.pb.elemInt i < 2 ^ (31 + Config.build.fracBits) := by
  unfold State.ReadyForDot
  cases Config.build <;> decide

/-- Two sequences and their exchange; with the identity permutation the first part's hypotheses hold of one
state twice, and with the exchange of two equal pairs of a state with a permuted one. -/
theorem witness_DotIgnoresTheOrderOfTerms :
    let s := idleWith [3#32, 5#32] [7#32, 9#32]
    let t := idleWith [7#32, 9#32] [3#32, 5#32]
    let u := idleWith [5#32, 3#32] [9#32, 7#32]
    s.ReadyForDot 2#32 ∧ t.ReadyForDot 2#32 ∧ u.ReadyForDot 2#32 ∧
    (∀ i, i < 2 → elemAt t.pa.elems i = elemAt s.pb.elems i ∧ elemAt t.pb.elems i = elemAt s.pa.elems i) ∧
    ∃ σ : Equiv.Perm (Fin (2#32).toNat), ∀ i : Fin (2#32).toNat,
      elemAt u.pa.elems i = elemAt s.pa.elems (σ i) ∧ elemAt u.pb.elems i = elemAt s.pb.elems (σ i) := by
  refine ⟨by unfold State.ReadyForDot; decide, by unfold State.ReadyForDot; decide,
    by unfold State.ReadyForDot; decide, by decide, Equiv.swap (⟨0, by decide⟩) (⟨1, by decide⟩), by decide⟩

theorem witness_ReservedRequestsAnswerInvalidCommand :
    (asked [] [] 0x00000800000010000#66).requests = [0b00#2 ++ (0x8000#32 ++ 0x10000#32)] ∧
    (asked [] [] 0x30000000100000000#66).requests = [0b11#2 ++ (1#32 ++ 0#32)] ∧
    (asked [] [] 0x30000000100000000#66).busy = false ∧ (asked [] [] 0x30000000100000000#66).moves = [] := by decide

theorem witness_ErrorsAreNotSticky :
    let s := idleWith [3#32, 5#32] [0x4000#32, 0x4000#32]
    s.busy = false ∧ ((0#32 : Word) = 0#32) ∧ s.pa.len < 3#32 ∧ s.ReadyForDot 2#32 := ⟨rfl, rfl, by decide, ready_two⟩

/-- The second part: a reserved request, and a `DOT` one longer than its sequences, each followed by another. -/
theorem witness_ErrorsAreNotSticky_step :
    let s := idleWith [3#32, 5#32] [0x4000#32, 0x4000#32]
    s.busy = false ∧ s.HoldsNothing ∧ s.BlockMoves ∧
    { s with requests := [0x30000000100000000#66, 1#66] }.requests = [0x30000000100000000#66, 1#66] ∧
    s.RequestErrs 0x30000000100000000#66 .invalidCommand ∧ s.RequestErrs 0x20000000300000000#66 .invalidArgument :=
  ⟨rfl, by unfold State.HoldsNothing; decide, .inl rfl, rfl, .inl ⟨⟨0b11#2, by decide⟩, rfl⟩,
    .inr ⟨⟨3#32, 0#32, by decide, by decide⟩, rfl⟩⟩

theorem witness_OneResponsePerRequest :
    let s := asked [1#32] [1#32] 0x20000000100000000#66
    s.busy = false ∧ s.moves = [] ∧ s.requests = [0x20000000100000000#66] ∧ s.pa.answers = true ∧
      s.pb.answers = true := by decide

/-- Two states that differ in everything the block could have kept. -/
theorem witness_NothingPersistsBetweenCommands :
    let s := idleWith [3#32] [4#32]
    let t := { s with acc := some 7#64, res := some 1#32, responses := [.invalidCommand] }
    (Instr.dot 1#32 0#32).format = .request ∧ s.busy = false ∧ t.busy = false ∧ s.pa = t.pa ∧ s.pb = t.pb ∧
      s.pa.answers = true ∧ s.pb.answers = true ∧ s ≠ t := by decide

theorem witness_BusyBlockLeavesRequestsWaiting :
    running.Inv ∧ running.busy = true ∧ running.BlockMoves ∧
    (∃ t, step { running with x := some 3#32, y := some 0x4000#32 } = .next t) ∧
    ({ running with moves := [.present 1#66] } : State).moves = [.present 1#66] :=
  ⟨running_inv, rfl, running_block, ⟨_, rfl⟩, rfl⟩

theorem witness_NoInstructionStores : ∃ t, exec (.wmul 1#32 2#32) State.reset = .next t := ⟨_, rfl⟩

theorem witness_OnlyDotReads :
    (∀ n x, Instr.wmul 1#32 2#32 ≠ .dot n x) ∧ ∃ t, exec (.wmul 1#32 2#32) State.reset = .next t :=
  ⟨fun _ _ h => (nomatch h), _, rfl⟩

/-- A busy block whose next step is its `WMUL`. -/
theorem witness_BlockNeverWritesMemory :
    let s := { running with x := some 3#32, y := some 0x4000#32 }
    State.KeepsElements s ∧ ∃ t, step s = .next t := ⟨keepsElements_of_nil rfl, _, rfl⟩

theorem witness_ReadsStayWithinTheCount :
    summing.Inv ∧ summing.InBounds ∧ summing.busy = true ∧ summing.BlockMoves ∧ ∃ t, step summing = .next t := by
  refine ⟨summing_inv, summing_inBounds, rfl, summing_block, ?_⟩
  rw [step_eq_finish, fetchAt_block _ (by rfl) summing_block]
  simp only [summing, running, commandTurn, dotTurn, pairTurn, State.withMoves, State.withIdx, State.withAcc,
    State.accepted, State.idle]
  cases Config.params.pairOrder _ <;> exact ⟨_, rfl⟩

theorem witness_RacingWriteIsSeenByLaterReadsOnly :
    let s := { running with moves := [.store [(.pb, 0#32, 0#32)]] }
    State.Inv s ∧ s.moves = [.store [(.pb, 0#32, 0#32)]] ∧ 0#32 < (State.port s .pb).len :=
  ⟨running_inv, rfl, by decide⟩

theorem witness_ResetAbandonsTheCommand : ({ running with moves := [.reset] } : State).moves = [.reset] := rfl

/-- The multiples at both ends of the range, for either build. -/
theorem witness_ValuesSpanTheFormat : ∀ b : Build,
    -(2 : ℚ) ^ (31 - b.fracBits) ≤ ((-2147483648 : Int) : ℚ) * resolution b ∧
    ((2147483647 : Int) : ℚ) * resolution b ≤ 2 ^ (31 - b.fracBits) - resolution b := by
  intro b; cases b <;> norm_num [resolution, Build.fracBits]

theorem witness_StepKeepsTheInvariant :
    running.Inv ∧ ∃ t, step { running with moves := [.reset] } = .next t := ⟨running_inv, _, rfl⟩

theorem witness_StepAlwaysAnswers : summing.Inv ∧ summing.InBounds ∧ summing.KeepsBindings :=
  ⟨summing_inv, summing_inBounds, (keepsElements_of_nil rfl).1⟩

theorem witness_AccAlwaysHoldsThePartialSum :
    summing.Inv ∧ summing.AccHoldsSum ∧ summing.KeepsElements ∧ ∃ t, step summing = .next t := by
  refine ⟨summing_inv, ?_, keepsElements_of_nil rfl, witness_ReadsStayWithinTheCount.2.2.2.2⟩
  intro n _ hn
  cases (by simpa [summing, running] using hn : 2#32 = n)
  refine ⟨fun h => (nomatch h), fun acc i ha hi => ?_⟩
  cases (by simpa [summing] using ha : 0xC000#64 = acc)
  cases (by simpa [summing] using hi : 1#32 = i)
  exact ⟨by decide, fun v h => (nomatch h), fun v h => (nomatch h)⟩

theorem witness_SmallStepsReachTheWholeDot :
    (idleWith [3#32] [4#32]).busy = false ∧ (idleWith [3#32] [4#32]).pa.answers = true ∧
      (idleWith [3#32] [4#32]).pb.answers = true := by decide

/-- A running `DOT`, and a running `MUL` for the clause without a count. -/
theorem witness_RunningCommandsEnd :
    (summing.Inv ∧ summing.InBounds ∧ summing.busy = true ∧ summing.moves = [] ∧ summing.pa.answers = true ∧
      summing.pb.answers = true) ∧
    let m := State.reset.accepted 0b01#2 3#32 4#32
    m.Inv ∧ m.InBounds ∧ m.busy = true ∧ m.moves = [] ∧ m.pa.answers = true ∧ m.pb.answers = true ∧ m.cnt = none :=
  ⟨⟨summing_inv, summing_inBounds, rfl, rfl, rfl, rfl⟩,
    ⟨by decide, by decide, (fun h => nomatch h), fun _ => .inl ⟨rfl, rfl, rfl, rfl, rfl, rfl, rfl, fun _ => rfl⟩⟩,
    (fun _ h => nomatch h), rfl, rfl, rfl, rfl, rfl⟩

/-- A listing with an index named twice and one outside the length; an empty sequence is one too. -/
theorem witness_BindingPresentsTheSequence :
    ({ State.reset with moves := [.bind .pa 2#32 [(0, 7#32), (0, 8#32), (2, 9#32)]] } : State).moves =
      [.bind .pa 2#32 [(0, 7#32), (0, 8#32), (2, 9#32)]] ∧ (0#32 : Word) < 2#32 ∧ ¬ (2#32 : Word) < 2#32 := by decide

/-- Two writes to one element, one to the other port, one outside. -/
theorem witness_WritesOfOneMomentAreAllSeen :
    let writes := [(PortId.pa, 0#32, 1#32), (.pa, 0#32, 2#32), (.pb, 1#32, 3#32), (.pb, 2#32, 4#32)]
    let s := { running with moves := [.store writes] }
    State.Inv s ∧ s.moves = [.store writes] ∧ (writes.filter fun e => e.1 = .pa && e.2.1 = 0#32).length = 2 ∧
      ¬ 2#32 < (State.port s .pb).len := ⟨running_inv, rfl, by decide, by decide⟩

/-- R41 and log entry 24: what the two moves make the elements read as. -/
theorem test_bind_and_store :
    (match step { State.reset with moves := [.bind .pa 2#32 [(0, 7#32), (0, 8#32), (2, 9#32)]] } with
      | .next s => [s.pa.elem? 0#32, s.pa.elem? 1#32, s.pa.elem? 2#32] | .fault _ => [] | .refused _ => [])
    = [some 7#32, some 0#32, none] ∧
    (match step { running with moves := [.store [(.pa, 0#32, 1#32), (.pa, 0#32, 2#32), (.pb, 2#32, 4#32)]] } with
      | .next s => [s.pa.elem? 0#32, s.pa.elem? 1#32, s.pb.elem? 2#32] | .fault _ => [] | .refused _ => [])
    = [some 2#32, some 5#32, none] := by decide

end Sys2Proof.Tests
end

/-! PROOFS. What a command answers in an idle block, in closed form (42_mul.md R111, 43_dot.md R121 to R123),
and that nothing the block held before enters it (00_scope.md R20). -/

namespace Sys2Proof.Machine

/-! ## The narrowed accumulator from the exact sum -/

/-- Wrapping to 32 bits adds nothing to taking the 32-bit pattern (R9). -/
theorem ofInt_wrapTo (n : Nat) (z : Int) : BitVec.ofInt n (wrapTo n z) = BitVec.ofInt n z := by
  rw [wrapTo_eq_toInt, BitVec.ofInt_toInt]

theorem fracBits_le (b : Build) : b.fracBits ≤ 32 := by cases b <;> decide

/-- What the accumulator loses of a sum is a multiple of `2^64`, and the converter divides it to a multiple
of `2^32`: narrowing the wrapped sum is narrowing the sum (R96). -/
theorem narrowed_ofInt (b : Build) (z : Int) :
    narrowed b (BitVec.ofInt 64 z) = BitVec.ofInt 32 (floorShift b z) := by
  have hpos : (0 : Int) < 2 ^ b.fracBits := by positivity
  have hsplit : (2 : Int) ^ 64 = 2 ^ b.fracBits * (2 ^ (32 - b.fracBits) * 2 ^ 32) := by
    rw [← mul_assoc, ← pow_add, Nat.add_sub_cancel' (fracBits_le b)]; norm_num
  obtain ⟨k, hk⟩ : (2 : Int) ^ 64 ∣ (BitVec.ofInt 64 z).toInt - z := by
    rw [BitVec.toInt_ofInt]; exact Int.dvd_bmod_sub_self
  have hshift : floorShift b (BitVec.ofInt 64 z).toInt =
      floorShift b z + 2 ^ 32 * (2 ^ (32 - b.fracBits) * k) := by
    rw [floorShift, floorShift, Int.fdiv_eq_ediv_of_nonneg _ hpos.le, Int.fdiv_eq_ediv_of_nonneg _ hpos.le,
      show (BitVec.ofInt 64 z).toInt = z + 2 ^ b.fracBits * (2 ^ 32 * (2 ^ (32 - b.fracBits) * k)) by
        rw [eq_add_of_sub_eq' hk, hsplit]; ring,
      Int.add_mul_ediv_left _ _ hpos.ne']
  rw [narrowed_eq_ofInt, hshift, BitVec.ofInt_add, BitVec.ofInt_mul,
    show BitVec.ofInt 32 (2 ^ 32) = 0#32 from rfl, BitVec.zero_mul, BitVec.add_zero]

theorem narrowed_wideProduct (b : Build) (u v : Word) : narrowed b (wideProduct u v) = mulResult b u v := by
  rw [wideProduct_eq_ofInt, narrowed_ofInt, mulResult, ofInt_wrapTo]

theorem narrowed_dotSum (b : Build) (s : State) (n : Word) :
    narrowed b (BitVec.ofInt 64 (dotSum s.pa s.pb n.toNat)) = dotResult b s n := by
  rw [narrowed_ofInt, dotResult, ofInt_wrapTo]

/-! ## The commands of an idle block -/

/-- `MUL` (R111). -/
theorem mulAt_of_idle {s : State} (p : Params) (a b : Word) (hs : s.busy = false) :
    mulAt p a b s = .next (s.responded (.ok (mulResult p.build a b))) := by
  rw [mulAt, hs, execWmul_eq, andThen_next, narrowRespond_eq p (State.withAcc_acc _ _), narrowed_wideProduct]
  rfl

/-- `DOT` whose check fails (R121). -/
theorem dotAt_of_invalid {s : State} {n : Word} (p : Params) (x : Word) (hs : s.busy = false)
    (hn : s.dotInvalid n = true) : dotAt p n x s = .next (s.responded .invalidArgument) := by
  simp [dotAt, hs, hn, raiseError_eq, ErrorCode.response]

/-- The sum over `n` pairs is pair 0 and then the pairs of the loop. -/
theorem dotSum_eq_first_add (a b : Port) {n : Nat} (hn : 0 < n) :
    dotSum a b n = a.elemInt 0 * b.elemInt 0 +
      (Finset.Ico 1 n).sum fun j => a.elemInt j * b.elemInt j := by
  rw [dotSum, Finset.range_eq_Ico, Finset.sum_eq_sum_Ico_succ_bot hn]

/-- The computation of a `DOT` within its sequences (R122, R123): from any state, whatever it holds. -/
theorem dotRun_eq {s : State} {n : Word} {p : Params} (hp : p.accOverflow = .wrap) (hn : 0 < n.toNat)
    (ha : n.toNat ≤ s.pa.len.toNat) (hb : n.toNat ≤ s.pb.len.toNat) :
    dotRun p n s = .next ((s.withReads (readOrder n.toNat)).responded (.ok (dotResult p.build s n))) := by
  have hlast : n.toNat - 1 < n.toNat := Nat.sub_lt hn one_pos
  have ha0 : 0#32 < s.pa.len := BitVec.lt_def.2 (hn.trans_le ha)
  have hb0 : 0#32 < s.pb.len := BitVec.lt_def.2 (hn.trans_le hb)
  rw [dotRun, withPair_eq _ ha0 hb0, execWmul_eq, andThen_next,
    dotLoop_eq hp _ (hlast.trans n.isLt) _ _ (by rw [State.withAcc_acc, wideProduct_eq_ofInt])
      (by exact hlast.trans_le ha) (by exact hlast.trans_le hb), andThen_next, narrowRespond_eq p rfl,
    Nat.sub_add_cancel hn, ← narrowed_dotSum, dotSum_eq_first_add _ _ hn, readOrder_eq]
  simp [State.withReads, State.responded, State.idle, Port.elemInt]

/-- `DOT` whose check passes, run by the wrapping adder on answering ports (R122, R123). -/
theorem dotAt_of_ready {s : State} {n : Word} {p : Params} (hp : p.accOverflow = .wrap) (x : Word)
    (h : s.ReadyForDot n) :
    dotAt p n x s = .next ((s.withReads (readOrder n.toNat)).responded (.ok (dotResult p.build s n))) := by
  obtain ⟨hs, hn, hla, hlb, hpa, hpb⟩ := h
  have hpos : 0 < n.toNat := Nat.pos_of_ne_zero fun h0 => hn (BitVec.eq_of_toNat_eq h0)
  have hrun := dotRun_eq (s := s.accepted 0b10#2 n x) hp hpos (BitVec.le_def.1 hla) (BitVec.le_def.1 hlb)
  rw [dotAt, hs, dotInvalid_eq_false.2 ⟨hn, hla, hlb⟩, hpa, hpb]
  exact hrun

/-! ## What a result depends on -/

/-- The check of R121 looks at the lengths alone. -/
theorem dotInvalid_congr {s t : State} (n : Word) (ha : s.pa.len = t.pa.len) (hb : s.pb.len = t.pb.len) :
    s.dotInvalid n = t.dotInvalid n := by
  rw [State.dotInvalid, State.dotInvalid, ha, hb]

/-- The result of a `DOT` depends on the elements alone (R123). -/
theorem dotResult_congr {s t : State} (b : Build) (n : Word)
    (h : ∀ j, elemAt s.pa.elems j = elemAt t.pa.elems j ∧ elemAt s.pb.elems j = elemAt t.pb.elems j) :
    dotResult b s n = dotResult b t n := by
  have hsum : dotSum s.pa s.pb n.toNat = dotSum t.pa t.pb n.toNat :=
    Finset.sum_congr rfl fun j _ => by simp only [Port.elemInt, h j]
  rw [dotResult, dotResult, hsum]

/-- The response to a command in an idle block whose ports answer, from the build, the request and the
sequences (R111, R121, R123). A micro-operation is no command and gets none (R60). -/
def commandResponse (b : Build) (s : State) : Instr → Option Response
  | .mul u v    => some (.ok (mulResult b u v))
  | .dot n _    => some (if s.dotInvalid n then .invalidArgument else .ok (dotResult b s n))
  | .wmul _ _   => none
  | .wmac _ _   => none
  | .narrow _ _ => none

/-- Only the lengths and the elements of the state enter a response (R20). -/
theorem commandResponse_congr {s t : State} (b : Build) (i : Instr) (ha : s.pa.len = t.pa.len)
    (hb : s.pb.len = t.pb.len)
    (h : ∀ j, elemAt s.pa.elems j = elemAt t.pa.elems j ∧ elemAt s.pb.elems j = elemAt t.pb.elems j) :
    commandResponse b s i = commandResponse b t i := by
  cases i <;> simp only [commandResponse, dotInvalid_congr _ ha hb, dotResult_congr b _ h]

/-- A request gets a response. -/
theorem commandResponse_of_request (b : Build) (s : State) {i : Instr} (hi : i.format = .request) :
    ∃ r, commandResponse b s i = some r := by
  cases i with
  | mul u v => exact ⟨_, rfl⟩
  | dot n x => exact ⟨_, rfl⟩
  | wmul _ _ | wmac _ _ | narrow _ _ => cases hi

/-- An idle block whose ports answer completes every command in the step that takes it, with that response
and no other (R65, R123). -/
theorem exec_delivers_commandResponse {s : State} {i : Instr} {r : Response} (hs : s.busy = false)
    (hpa : s.pa.answers = true) (hpb : s.pb.answers = true)
    (hr : commandResponse Config.build s i = some r) :
    ∃ t, exec i s = .next t ∧ t.responses = s.responses ++ [r] := by
  cases i with
  | mul u v =>
    cases hr
    exact ⟨_, mulAt_of_idle Config.params u v hs, rfl⟩
  | dot n x =>
    cases hr
    cases hn : s.dotInvalid n with
    | true => exact ⟨_, dotAt_of_invalid Config.params x hs hn, rfl⟩
    | false =>
      obtain ⟨hn0, hla, hlb⟩ := dotInvalid_eq_false.1 hn
      exact ⟨_, dotAt_of_ready params_accOverflow x ⟨hs, hn0, hla, hlb, hpa, hpb⟩, rfl⟩
  | wmul _ _ | wmac _ _ | narrow _ _ => cases hr

/-- Settles O41: the response of either state is `commandResponse`, which reads the build, the request and
the sequences and nothing else. -/
theorem nothingPersistsBetweenCommands : Obligations.NothingPersistsBetweenCommands := by
  intro s t i hi hs ht hla hlb helems hspa hspb htpa htpb
  obtain ⟨r, hr⟩ := commandResponse_of_request Config.build s hi
  obtain ⟨s', hexec, hresp⟩ := exec_delivers_commandResponse hs hspa hspb hr
  obtain ⟨t', hexec', hresp'⟩ := exec_delivers_commandResponse ht htpa htpb
    ((commandResponse_congr Config.build i hla hlb helems).symm.trans hr)
  exact ⟨s', t', r, hexec, hexec', hresp, hresp'⟩

end Sys2Proof.Machine

/-! PROOFS. The invariant of the machine: the states that meet it, reset among them (10_state.md R28, R33), and
that every step keeps it (43_dot.md R122). -/

namespace Sys2Proof.Machine

/-! ## States that meet the invariant -/

theorem State.idle_holdsNothing (s : State) : s.idle.HoldsNothing :=
  ⟨rfl, rfl, rfl, rfl, rfl, rfl, rfl, rfl, rfl⟩

/-- An idle block that holds nothing is as reset would leave it. -/
theorem State.idle_eq_self {s : State} (hs : s.busy = false) (h : s.HoldsNothing) : s.idle = s := by
  obtain ⟨hacc, hres, hopl, hla, hlb, hcnt, hidx, hx, hy⟩ := h
  cases s
  simp_all [State.idle]

theorem State.idle_inv {s : State} (ha : s.pa.wf = true) (hb : s.pb.wf = true) : s.idle.Inv :=
  ⟨ha, hb, fun _ => s.idle_holdsNothing, fun h => (nomatch h)⟩

theorem State.responded_inv {s : State} (r : Response) (ha : s.pa.wf = true) (hb : s.pb.wf = true) :
    (s.responded r).Inv := State.idle_inv ha hb

theorem State.inv_of_running {s : State} (ha : s.pa.wf = true) (hb : s.pb.wf = true) (hs : s.busy = true)
    (h : s.MulRunning ∨ ∃ n, s.DotRunning n) : s.Inv :=
  ⟨ha, hb, fun h' => absurd h' (by simp [hs]), fun _ => h⟩

theorem State.accepted_mulRunning (s : State) (a b : Word) : (s.accepted 0b01#2 a b).MulRunning :=
  ⟨rfl, rfl, rfl, rfl, rfl, rfl, rfl, fun _ => rfl⟩

theorem State.accepted_dotRunning (s : State) {n : Word} (x : Word) (hn : n ≠ 0#32) :
    (s.accepted 0b10#2 n x).DotRunning n :=
  ⟨rfl, rfl, rfl, rfl, hn, .inl ⟨rfl, rfl, rfl⟩⟩

/-! ## The state after reset -/

/-- Settles O48: every register is empty by definition, and the constants are computed for each build. -/
theorem resetLeavesTheBlockIdle : Obligations.ResetLeavesTheBlockIdle := by
  refine ⟨rfl, rfl, rfl, rfl, rfl, rfl, rfl, rfl, rfl, fun b => ?_⟩
  cases b <;> decide

/-- Settles O51: at reset the block is idle, so there is neither a count nor a sum to speak of. -/
theorem resetMeetsTheInvariant : Obligations.ResetMeetsTheInvariant :=
  ⟨State.idle_inv (s := State.reset) Port.unbound_wf Port.unbound_wf, fun _ h => (nomatch h), fun _ h => (nomatch h)⟩

/-! ## What an idle block makes of a request -/

/-- The state in which an idle block leaves the request it takes: answered, with the reads of a whole `DOT`
recorded, or accepted as a running command. -/
inductive TakenRequest (s : State) : State → Prop
  | answers (order : List Word) (r : Response) : TakenRequest s ((s.withReads order).responded r)
  | startsMul (a b : Word) : TakenRequest s (s.accepted 0b01#2 a b)
  | startsDot (n x : Word) (h : s.dotInvalid n = false) : TakenRequest s (s.accepted 0b10#2 n x)

theorem State.withReads_nil (s : State) : s.withReads [] = s := by simp [State.withReads]

theorem TakenRequest.responds (s : State) (r : Response) : TakenRequest s (s.responded r) := by
  simpa only [State.withReads_nil] using TakenRequest.answers (s := s) [] r

theorem takenRequest_of_accept {w : OpWord} {s t : State} (h : accept w s = .next t) : TakenRequest s t := by
  obtain ⟨-, rfl⟩ | ⟨-, hn, rfl⟩ | ⟨r, -, rfl⟩ := accept_cases h
  · exact .startsMul _ _
  · exact .startsDot _ _ hn
  · exact .responds s r

/-- The check of R121 and the answering ports are all a `DOT` needs to run. -/
theorem readyForDot_of_check {s : State} {n : Word} (hs : s.busy = false) (hn : s.dotInvalid n = false)
    (hans : (s.pa.answers && s.pb.answers) = true) : s.ReadyForDot n := by
  obtain ⟨hn0, ha, hb⟩ := dotInvalid_eq_false.1 hn
  obtain ⟨hpa, hpb⟩ := Bool.and_eq_true_iff.1 hans
  exact ⟨hs, hn0, ha, hb, hpa, hpb⟩

theorem takenRequest_of_exec {w : OpWord} {i : Instr} {s t : State} (hs : s.busy = false)
    (hd : decodeRequest w = .instr i) (h : exec i s = .next t) : TakenRequest s t := by
  obtain ⟨a, b, rfl⟩ | ⟨n, x, rfl⟩ := decodeRequest_instr hd
  · cases (mulAt_of_idle Config.params a b hs).symm.trans h
    exact .responds s _
  · obtain ⟨hb, -⟩ | ⟨-, -, rfl⟩ | ⟨-, hn, -, rfl⟩ | ⟨-, hn, hans, -⟩ := exec_dot_cases h
    · simp [hs] at hb
    · exact .responds s _
    · exact .startsDot n x hn
    · cases (dotAt_of_ready params_accOverflow x (readyForDot_of_check hs hn hans)).symm.trans h
      exact .answers _ _

theorem TakenRequest.inv {s t : State} (h : TakenRequest s t) (ha : s.pa.wf = true) (hb : s.pb.wf = true) :
    t.Inv := by
  cases h with
  | answers order r => exact State.responded_inv r ha hb
  | startsMul a b => exact State.inv_of_running ha hb rfl (.inl (s.accepted_mulRunning a b))
  | startsDot n x hn =>
    exact State.inv_of_running ha hb rfl (.inr ⟨n, s.accepted_dotRunning x (dotInvalid_eq_false.1 hn).1⟩)

/-! ## One turn of a running command -/

/-- Reading a pair changes nothing but the pair and the two records of reads. -/
theorem PairRead.exists_eq {s t : State} {i : Word} (h : PairRead s i t) : ∃ x y ra rb,
    t = { s with x := x, y := y, pa := { s.pa with reads := ra }, pb := { s.pb with reads := rb } } := by
  cases h <;> exact ⟨_, _, _, _, rfl⟩

theorem mulRunning_of_inv {s : State} (h : s.Inv) (hs : s.busy = true) (ho : s.opl = some 0b01#2) :
    s.MulRunning := by
  obtain ⟨-, -, -, hrun⟩ := h
  obtain hm | ⟨n, ho', -⟩ := hrun hs
  · exact hm
  · cases ho.symm.trans ho'

theorem dotRunning_of_inv {s : State} (h : s.Inv) (hs : s.busy = true) (ho : s.opl = some 0b10#2) :
    ∃ n, s.DotRunning n := by
  obtain ⟨-, -, -, hrun⟩ := h
  obtain ⟨ho', -⟩ | hd := hrun hs
  · cases ho.symm.trans ho'
  · exact hd

theorem State.MulRunning.withAcc {s : State} (h : s.MulRunning) (v : Wide) : (s.withAcc v).MulRunning := by
  obtain ⟨ho, hla, hlb, hcnt, hidx, hx, hy, -⟩ := h
  exact ⟨ho, hla, hlb, hcnt, hidx, hx, hy, fun h' => (nomatch h')⟩

theorem State.MulRunning.withRes {s : State} {acc : Wide} (h : s.MulRunning) (ha : s.acc = some acc) (v : Word) :
    (s.withRes v).MulRunning := by
  obtain ⟨ho, hla, hlb, hcnt, hidx, hx, hy, -⟩ := h
  exact ⟨ho, hla, hlb, hcnt, hidx, hx, hy, fun h' => (nomatch ha.symm.trans h')⟩

/-- The index of a `DOT` whose `ACC` holds a value, and what the invariant says of it. -/
theorem State.DotRunning.idx_of_acc {s : State} {n : Word} {acc : Wide} (h : s.DotRunning n)
    (ha : s.acc = some acc) :
    ∃ i, s.idx = some i ∧ i < n ∧ (i = 0#32 → s.x = none ∧ s.y = none) ∧ (i ≠ 0#32 → s.res = none) := by
  obtain ⟨-, -, -, -, -, ⟨ha', -⟩ | ⟨-, hidx⟩⟩ := h
  · cases ha.symm.trans ha'
  · exact hidx

theorem State.DotRunning.withRes {s : State} {n : Word} {acc : Wide} (h : s.DotRunning n)
    (ha : s.acc = some acc) (hi : s.idx = some 0#32) (v : Word) : (s.withRes v).DotRunning n := by
  obtain ⟨i, hi', hlt, hpair, -⟩ := h.idx_of_acc ha
  cases hi.symm.trans hi'
  obtain ⟨ho, hla, hlb, hcnt, hn, -⟩ := h
  exact ⟨ho, hla, hlb, hcnt, hn, .inr ⟨by simp [ha], _, hi, hlt, hpair, fun h0 => absurd rfl h0⟩⟩

/-- After a micro-operation has consumed its pair, `IDX` has moved to another index below the count. -/
theorem State.DotRunning.consumedPair {s : State} {n i : Word} (h : s.DotRunning n) (hi : i < n)
    (hr : s.res = none) (v : Wide) : ((s.consumedPair i).withAcc v).DotRunning n := by
  obtain ⟨ho, hla, hlb, hcnt, hn, -⟩ := h
  exact ⟨ho, hla, hlb, hcnt, hn, .inr ⟨rfl, i, rfl, hi, fun _ => ⟨rfl, rfl⟩, fun _ => hr⟩⟩

/-- A pair is read before the `WMUL` or at an index that is not 0. -/
theorem State.DotRunning.pairRead {s t : State} {n i : Word} (h : s.DotRunning n) (ht : PairRead s i t)
    (hi : s.acc = none ∨ ∃ j, s.idx = some j ∧ j ≠ 0#32) : t.DotRunning n := by
  obtain ⟨x, y, ra, rb, rfl⟩ := ht.exists_eq
  obtain ⟨ho, hla, hlb, hcnt, hn, hfirst | ⟨ha, j, hj, hlt, -, hres⟩⟩ := h
  · exact ⟨ho, hla, hlb, hcnt, hn, .inl hfirst⟩
  · refine ⟨ho, hla, hlb, hcnt, hn, .inr ⟨ha, j, hj, hlt, fun h0 => ?_, hres⟩⟩
    obtain ha' | ⟨k, hk, hk0⟩ := hi
    · simp [ha'] at ha
    · cases hk.symm.trans hj
      exact absurd h0 hk0

theorem PairRead.wf {s t : State} {i : Word} (h : PairRead s i t) (ha : s.pa.wf = true) (hb : s.pb.wf = true) :
    t.pa.wf = true ∧ t.pb.wf = true := by
  obtain ⟨x, y, ra, rb, rfl⟩ := h.exists_eq
  exact ⟨ha, hb⟩

theorem PairRead.busy {s t : State} {i : Word} (h : PairRead s i t) : t.busy = s.busy := by
  obtain ⟨x, y, ra, rb, rfl⟩ := h.exists_eq
  rfl

theorem sub_one_lt_self {n : Word} (hn : n ≠ 0#32) : n - 1#32 < n := by bv_omega

/-- A turn of a running command leaves it inside its program, or ends it. -/
theorem TurnResult.inv {s t : State} (h : TurnResult s t) (hinv : s.Inv) (hs : s.busy = true) : t.Inv := by
  have hwf := hinv
  obtain ⟨ha, hb, -, -⟩ := hwf
  cases h with
  | responds v hr => exact State.responded_inv _ ha hb
  | rejects c hr ho h1 h2 => exact State.responded_inv _ ha hb
  | narrows acc hr hacc ho =>
    refine State.inv_of_running ha hb hs ?_
    obtain ho | ⟨ho, hi⟩ := ho
    · exact .inl ((mulRunning_of_inv hinv hs ho).withRes hacc _)
    · obtain ⟨n, hd⟩ := dotRunning_of_inv hinv hs ho
      exact .inr ⟨n, hd.withRes hacc hi _⟩
  | multiplies a b hr hacc ho hla hlb =>
    exact State.inv_of_running ha hb hs (.inl ((mulRunning_of_inv hinv hs ho).withAcc _))
  | startsSum n x y hr hacc ho hc hx hy =>
    obtain ⟨m, hd⟩ := dotRunning_of_inv hinv hs ho
    have hcnt := hd
    obtain ⟨-, -, -, hm, hm0, -⟩ := hcnt
    cases hc.symm.trans hm
    exact State.inv_of_running ha hb hs (.inr ⟨n, hd.consumedPair (sub_one_lt_self hm0) hr _⟩)
  | accumulates acc i x y hr hacc ho hi hi0 hx hy =>
    obtain ⟨n, hd⟩ := dotRunning_of_inv hinv hs ho
    obtain ⟨j, hj, hlt, -⟩ := hd.idx_of_acc hacc
    cases hi.symm.trans hj
    exact State.inv_of_running ha hb hs (.inr ⟨n, hd.consumedPair (BitVec.lt_trans (sub_one_lt_self hi0) hlt) hr _⟩)
  | readsFirst n _ hr hacc ho hc hp =>
    obtain ⟨m, hd⟩ := dotRunning_of_inv hinv hs ho
    obtain ⟨ha', hb'⟩ := hp.wf ha hb
    exact State.inv_of_running ha' hb' (hp.busy.trans hs) (.inr ⟨m, hd.pairRead hp (.inl hacc)⟩)
  | readsNext acc i _ hr hacc ho hi hi0 hp =>
    obtain ⟨n, hd⟩ := dotRunning_of_inv hinv hs ho
    obtain ⟨ha', hb'⟩ := hp.wf ha hb
    exact State.inv_of_running ha' hb' (hp.busy.trans hs) (.inr ⟨n, hd.pairRead hp (.inr ⟨i, hi, hi0⟩)⟩)

/-! ## One step -/

/-- Where the transient registers are as they were, only the form of the elements is left to show. -/
theorem State.Inv.setPort {s : State} (h : s.Inv) (q : PortId) {p : Port} (hp : p.wf = true) :
    (s.setPort q p).Inv := by
  obtain ⟨ha, hb, hidle, hrun⟩ := h
  cases q with
  | pa => exact ⟨hp, hb, hidle, hrun⟩
  | pb => exact ⟨ha, hp, hidle, hrun⟩

theorem State.Inv.port_wf {s : State} (h : s.Inv) (q : PortId) : (s.port q).wf = true := by
  obtain ⟨ha, hb, -, -⟩ := h
  cases q with
  | pa => exact ha
  | pb => exact hb

theorem State.Inv.storeElems {s : State} (h : s.Inv) (ws : List (PortId × Word × Word)) :
    (s.storeElems ws).Inv := by
  induction ws generalizing s with
  | nil => exact h
  | cons e ws ih =>
    obtain ⟨q, i, v⟩ := e
    exact ih (h.setPort q (Port.write_wf (h.port_wf q) i v))

/-- Everything one step can do keeps the invariant. -/
theorem StepResult.inv {m : Option Move} {u t : State} (h : StepResult m u t) (hinv : u.Inv) : t.Inv := by
  have hwf := hinv
  obtain ⟨ha, hb, -, -⟩ := hwf
  cases h with
  | runs _ hbusy h => exact h.inv hinv hbusy
  | rests hbusy hr => exact hinv
  | accepts w ws _ hbusy hr h => exact (takenRequest_of_accept h).inv ha hb
  | rejects w ws hbusy hr => exact State.responded_inv _ ha hb
  | commands w ws i _ hbusy hr hd h => exact (takenRequest_of_exec (s := u.withRequests ws) hbusy hd h).inv ha hb
  | presents w hm => exact hinv
  | binds q len elems hm => exact hinv.setPort q (Port.rebind_wf _ len elems)
  | stores ws hm => exact hinv.storeElems ws
  | answers q on hm => exact hinv.setPort q (hinv.port_wf q)
  | resets hm => exact State.idle_inv ha hb

/-- Settles O52: the invariant through the inversion lemma of a step. -/
theorem stepKeepsTheInvariant : Obligations.StepKeepsTheInvariant :=
  fun _ _ hinv h => (step_cases h).inv hinv

end Sys2Proof.Machine

/-! PROOFS. What a step of an idle block does: it answers, it never looks at the record of the responses
(log entry 7), and an error leaves nothing else behind (60_exceptions.md R148). -/

namespace Sys2Proof.Machine

/-! ## Computations that only extend the record of the responses -/

/-- The state with another record of the responses delivered. -/
def State.withResponses (s : State) (rs : List Response) : State := { s with responses := rs }

/-- From `s` the computation `f` answers, and the record of the responses does not enter it: whatever the
record is, `f` reaches the same state otherwise and adds the same responses. -/
def IgnoresRecord (f : State → Result) (s : State) : Prop :=
  ∃ (t : State) (added : List Response), ∀ rs, f (s.withResponses rs) = .next (t.withResponses (rs ++ added))

theorem ignoresRecord_of_silent {f : State → Result} {s t : State}
    (h : ∀ rs, f (s.withResponses rs) = .next (t.withResponses rs)) : IgnoresRecord f s :=
  ⟨t, [], fun rs => by rw [h, List.append_nil]⟩

theorem ignoresRecord_of_responds {f : State → Result} {s t : State} {r : Response}
    (h : ∀ rs, f (s.withResponses rs) = .next ((t.withResponses rs).responded r)) : IgnoresRecord f s :=
  ⟨t.responded r, [r], h⟩

theorem IgnoresRecord.answers {f : State → Result} {s : State} (h : IgnoresRecord f s) : ∃ t, f s = .next t := by
  obtain ⟨t, added, h⟩ := h
  exact ⟨_, h s.responses⟩

/-- With one response more in the record, the same is done after it. -/
theorem IgnoresRecord.after_response {f : State → Result} {s : State} (h : IgnoresRecord f s) (e : Response) :
    f (s.withResponses (s.responses ++ [e])) = andThen (f s) fun t =>
      .next (t.withResponses (s.responses ++ e :: t.responses.drop s.responses.length)) := by
  obtain ⟨t, added, h⟩ := h
  have hs : f s = .next (t.withResponses (s.responses ++ added)) := h s.responses
  rw [h, hs]
  simp [State.withResponses]

/-! ## An idle block -/

theorem accept_ignoresRecord (w : OpWord) (s : State) : IgnoresRecord (accept w) s := by
  by_cases h1 : OpWord.op w = 0b01#2
  · refine ignoresRecord_of_silent (t := s.accepted 0b01#2 (OpWord.fieldA w) (OpWord.fieldB w)) fun rs => ?_
    rw [accept, if_pos h1]; rfl
  by_cases h2 : OpWord.op w = 0b10#2
  · cases hn : s.dotInvalid (OpWord.fieldA w) with
    | true =>
      refine ignoresRecord_of_responds (t := s) (r := .invalidArgument) fun rs => ?_
      rw [accept, if_neg h1, if_pos h2, if_pos (by exact hn)]; rfl
    | false =>
      refine ignoresRecord_of_silent (t := s.accepted 0b10#2 (OpWord.fieldA w) (OpWord.fieldB w)) fun rs => ?_
      rw [accept, if_neg h1, if_pos h2, if_neg (by exact ne_true_of_eq_false hn)]; rfl
  · refine ignoresRecord_of_responds (t := s) (r := .invalidCommand) fun rs => ?_
    rw [accept, if_neg h1, if_neg h2]; rfl

/-- `DOT` whose check passes, with a silent port: accepted, and waiting (R130, U9). -/
theorem dotAt_of_silent {s : State} {n : Word} (p : Params) (x : Word) (hs : s.busy = false)
    (hn : s.dotInvalid n = false) (hans : (s.pa.answers && s.pb.answers) = false) :
    dotAt p n x s = .next (s.accepted 0b10#2 n x) := by
  simp [dotAt, hs, hn, hans]

theorem execDot_ignoresRecord {s : State} (n x : Word) (hs : s.busy = false) :
    IgnoresRecord (exec (.dot n x)) s := by
  cases hn : s.dotInvalid n with
  | true => exact ignoresRecord_of_responds (t := s) fun rs => dotAt_of_invalid Config.params x hs hn
  | false =>
    cases hans : (s.pa.answers && s.pb.answers) with
    | true =>
      have hready := readyForDot_of_check hs hn hans
      exact ignoresRecord_of_responds (t := s.withReads (readOrder n.toNat)) (r := .ok (dotResult Config.build s n))
        fun rs => dotAt_of_ready (s := s.withResponses rs) params_accOverflow x hready
    | false =>
      exact ignoresRecord_of_silent (t := s.accepted 0b10#2 n x)
        fun rs => dotAt_of_silent Config.params x hs hn hans

theorem exec_ignoresRecord {w : OpWord} {i : Instr} {s : State} (hs : s.busy = false)
    (hd : decodeRequest w = .instr i) : IgnoresRecord (exec i) s := by
  obtain ⟨a, b, rfl⟩ | ⟨n, x, rfl⟩ := decodeRequest_instr hd
  · exact ignoresRecord_of_responds (t := s) fun rs => mulAt_of_idle Config.params a b hs
  · exact execDot_ignoresRecord n x hs

theorem turn_ignoresRecord {s : State} (hs : s.busy = false) :
    IgnoresRecord (fun u => finish (turn Config.params u)) s := by
  cases hr : s.requests with
  | nil =>
    refine ignoresRecord_of_silent (t := s) fun rs => ?_
    simp [turn, State.withResponses, hs, hr, finish]
  | cons w ws =>
    obtain ⟨t, added, h⟩ := accept_ignoresRecord w (s.withRequests ws)
    refine ⟨t, added, fun rs => ?_⟩
    rw [← h]
    simp [turn, State.withResponses, hs, hr, finish, State.withRequests]

theorem wholeCommand_ignoresRecord {s : State} (hs : s.busy = false) :
    IgnoresRecord (fun u => finish (wholeCommand Config.params u)) s := by
  cases hr : s.requests with
  | nil =>
    refine ignoresRecord_of_silent (t := s) fun rs => ?_
    simp [wholeCommand, State.withResponses, hs, hr, finish]
  | cons w ws =>
    cases hd : decodeRequest w with
    | instr i =>
      obtain ⟨t, added, h⟩ := exec_ignoresRecord (s := s.withRequests ws) hs hd
      refine ⟨t, added, fun rs => ?_⟩
      rw [← h]
      simp [wholeCommand, State.withResponses, hs, hr, hd, finish, State.withRequests]
    | reservedRequest op =>
      refine ignoresRecord_of_responds (t := s.withRequests ws) (r := .invalidCommand) fun rs => ?_
      simp [wholeCommand, State.withResponses, hs, hr, hd, finish, State.withRequests, raiseError_eq,
        ErrorCode.response]
    | microOpNeverIssued => exact absurd hd (decodeRequest_ne_never w)

theorem State.setPort_withResponses (s : State) (q : PortId) (p : Port) (rs : List Response) :
    (s.withResponses rs).setPort q p = (s.setPort q p).withResponses rs := by cases q <;> rfl

theorem State.port_withResponses (s : State) (q : PortId) (rs : List Response) :
    (s.withResponses rs).port q = s.port q := by cases q <;> rfl

theorem State.storeElems_withResponses (ws : List (PortId × Word × Word)) (s : State) (rs : List Response) :
    (s.withResponses rs).storeElems ws = (s.storeElems ws).withResponses rs := by
  induction ws generalizing s with
  | nil => rfl
  | cons e ws ih =>
    obtain ⟨q, i, v⟩ := e
    simp only [State.storeElems, State.port_withResponses, State.setPort_withResponses, ih]

/-- A step of an idle block, whatever the world does in it. -/
theorem step_ignoresRecord {s : State} (hs : s.busy = false) : IgnoresRecord step s := by
  have hstep : ∀ rs, step (s.withResponses rs) = finish (fetchAt Config.params (s.withResponses rs)) :=
    fun rs => step_eq_finish _
  cases hm : s.moves with
  | nil =>
    obtain ⟨t, added, h⟩ := wholeCommand_ignoresRecord hs
    refine ⟨t, added, fun rs => ?_⟩
    rw [← h, hstep, fetchAt, show (s.withResponses rs).moves = [] from hm]
  | cons m ms =>
    have hmove : ∀ rs, step (s.withResponses rs) =
        finish (makeMove Config.params m ((s.withMoves ms).withResponses rs)) := by
      intro rs
      rw [hstep, fetchAt, show (s.withResponses rs).moves = m :: ms from hm]; rfl
    cases m with
    | turn =>
      obtain ⟨t, added, h⟩ := turn_ignoresRecord (s := s.withMoves ms) hs
      exact ⟨t, added, fun rs => (hmove rs).trans (h rs)⟩
    | whole =>
      obtain ⟨t, added, h⟩ := wholeCommand_ignoresRecord (s := s.withMoves ms) hs
      exact ⟨t, added, fun rs => (hmove rs).trans (h rs)⟩
    | present w => exact ignoresRecord_of_silent (t := (s.withMoves ms).present w) hmove
    | bind q len elems =>
      refine ignoresRecord_of_silent
        (t := (s.withMoves ms).setPort q (((s.withMoves ms).port q).rebind len elems)) fun rs => (hmove rs).trans ?_
      rw [makeMove, State.port_withResponses, State.setPort_withResponses]; rfl
    | store ws =>
      refine ignoresRecord_of_silent (t := (s.withMoves ms).storeElems ws) fun rs => (hmove rs).trans ?_
      rw [makeMove, State.storeElems_withResponses]; rfl
    | answer q on =>
      refine ignoresRecord_of_silent
        (t := (s.withMoves ms).setPort q { (s.withMoves ms).port q with answers := on }) fun rs => (hmove rs).trans ?_
      rw [makeMove, State.port_withResponses, State.setPort_withResponses]; rfl
    | reset => exact ignoresRecord_of_silent (t := (s.withMoves ms).idle) hmove

/-! ## The step in which a request errs -/

theorem op_of_reserved {w : OpWord} {op : BitVec 2} (h : decodeRequest w = .reservedRequest op) :
    OpWord.op w ≠ 0b01#2 ∧ OpWord.op w ≠ 0b10#2 := by
  unfold decodeRequest at h
  split at h
  · cases h
  · split at h
    · cases h
    · exact ⟨‹_›, ‹_›⟩

theorem op_of_dot {w : OpWord} {n x : Word} (h : decodeRequest w = .instr (.dot n x)) :
    OpWord.op w = 0b10#2 ∧ OpWord.fieldA w = n := by
  unfold decodeRequest at h
  split at h
  · cases h
  · split at h
    · cases h; exact ⟨‹_›, rfl⟩
    · cases h

/-- Taken by a turn, an erring request is answered at once (R140, R146). -/
theorem accept_of_errs {s : State} {w : OpWord} {e : Response} (h : s.RequestErrs w e) :
    accept w s = .next (s.responded e) := by
  obtain ⟨⟨op, hd⟩, rfl⟩ | ⟨⟨n, x, hd, hn⟩, rfl⟩ := h
  · obtain ⟨h1, h2⟩ := op_of_reserved hd
    rw [accept, if_neg h1, if_neg h2]; rfl
  · obtain ⟨h2, rfl⟩ := op_of_dot hd
    rw [accept, if_neg (by simp [h2]), if_pos h2, if_pos (dotInvalid_eq_true.2 hn)]; rfl

theorem turn_of_errs {s : State} {w : OpWord} {ws : List OpWord} {e : Response} (p : Params) (hs : s.busy = false)
    (hr : s.requests = w :: ws) (h : s.RequestErrs w e) :
    finish (turn p s) = .next ((s.withRequests ws).responded e) := by
  rw [← accept_of_errs (s := s.withRequests ws) h]
  simp [turn, hs, hr, finish]

/-- Taken by the undisturbed block, it is answered the same way. -/
theorem wholeCommand_of_errs {s : State} {w : OpWord} {ws : List OpWord} {e : Response} (p : Params)
    (hs : s.busy = false) (hr : s.requests = w :: ws) (h : s.RequestErrs w e) :
    finish (wholeCommand p s) = .next ((s.withRequests ws).responded e) := by
  obtain ⟨⟨op, hd⟩, rfl⟩ | ⟨⟨n, x, hd, hn⟩, rfl⟩ := h
  · simp [wholeCommand, hs, hr, hd, finish, raiseError_eq, ErrorCode.response]
  · have hexec : exec (.dot n x) (s.withRequests ws) = _ :=
      dotAt_of_invalid Config.params x hs (dotInvalid_eq_true.2 hn)
    simp [wholeCommand, hs, hr, hd, finish, hexec]

/-- Whichever grain the block moves in, a step that is the block's is one turn or one whole command. -/
theorem step_of_blockMoves {s : State} (h : s.BlockMoves) :
    step s = finish (turn Config.params s.popMove) ∨ step s = finish (wholeCommand Config.params s.popMove) := by
  rw [step_eq_finish]
  obtain hm | ⟨ms, hm | hm⟩ := h
  · exact .inr (by rw [fetchAt_whole _ (.inl hm)]; rfl)
  · exact .inl (by rw [fetchAt, State.popMove, hm]; rfl)
  · exact .inr (by rw [fetchAt_whole _ (.inr ⟨ms, hm⟩)]; rfl)

/-- An idle block whose first request errs delivers the error and is as it was without that request. -/
theorem step_of_errs {s : State} {w : OpWord} {ws : List OpWord} {e : Response} (hs : s.busy = false)
    (hn : s.HoldsNothing) (hm : s.BlockMoves) (hr : s.requests = w :: ws) (h : s.RequestErrs w e) :
    step s = .next ((s.popMove.withRequests ws).withResponses (s.responses ++ [e])) := by
  have hidle : (s.popMove.withRequests ws).idle = s.popMove.withRequests ws := State.idle_eq_self hs hn
  have hafter : (s.popMove.withRequests ws).responded e =
      (s.popMove.withRequests ws).withResponses (s.responses ++ [e]) := by
    rw [State.responded, hidle]; rfl
  rw [← hafter]
  obtain hstep | hstep := step_of_blockMoves hm
  · exact hstep.trans (turn_of_errs _ hs hr h)
  · exact hstep.trans (wholeCommand_of_errs _ hs hr h)

/-- Settles O39: a command's closed form is the same after an error; and the step after one is the step
without it, for that step ignores the record of the responses, all that the error has changed. -/
theorem errorsAreNotSticky : Obligations.ErrorsAreNotSticky := by
  constructor
  · intro s n x hs hn
    refine ⟨_, dotAt_of_invalid Config.params x hs (dotInvalid_eq_true.2 hn), fun a b => ?_, fun m y hm => ?_⟩
    · have hidle : (s.responded .invalidArgument).busy = false := rfl
      exact ⟨_, mulAt_of_idle Config.params a b hs, mulAt_of_idle Config.params a b hidle⟩
    · obtain ⟨-, hcheck⟩ := hm
      have hready : (s.responded .invalidArgument).ReadyForDot m := ⟨rfl, hcheck⟩
      exact ⟨_, dotAt_of_ready params_accOverflow y ⟨hs, hcheck⟩, dotAt_of_ready params_accOverflow y hready⟩
  · intro s w ws e hs hn hm hr herr
    exact ⟨step_of_errs hs hn hm hr herr,
      (step_ignoresRecord (s := s.popMove.withRequests ws) hs).after_response e⟩

/-- Settles O9: neither a turn nor a whole command finds anything to do. -/
theorem idleBlockWithoutRequestStays : Obligations.IdleBlockWithoutRequestStays := by
  intro s hs hr hm
  have hs' : s.popMove.busy = false := hs
  have hr' : s.popMove.requests = [] := hr
  obtain hstep | hstep := step_of_blockMoves hm
  · rw [hstep, turn, hs', hr']; rfl
  · rw [hstep, wholeCommand, hs', hr']; rfl

end Sys2Proof.Machine

/-! PROOFS. While bindings are kept no step stops, and the count stays within the sequences (R27, R44, R68,
R164). -/

namespace Sys2Proof.Machine

/-! ## The count stays within the sequences -/

theorem State.InBounds.of_cnt_none {s : State} (h : s.cnt = none) : s.InBounds := by
  intro n hn
  cases h.symm.trans hn

/-- The bound speaks of the count and the two lengths alone. -/
theorem State.InBounds.congr {s t : State} (h : s.InBounds) (hc : t.cnt = s.cnt) (ha : t.pa.len = s.pa.len)
    (hb : t.pb.len = s.pb.len) : t.InBounds := by
  intro n hn
  rw [ha, hb]
  exact h n (hc.symm.trans hn)

theorem TakenRequest.inBounds {s t : State} (h : TakenRequest s t) : t.InBounds := by
  cases h with
  | answers order r => exact .of_cnt_none rfl
  | startsMul a b => exact .of_cnt_none rfl
  | startsDot n x hn =>
    intro m hm
    cases hm
    exact (dotInvalid_eq_false.1 hn).2

theorem State.InBounds.pairRead {s t : State} {i : Word} (h : s.InBounds) (ht : PairRead s i t) :
    t.InBounds := by
  obtain ⟨x, y, ra, rb, rfl⟩ := ht.exists_eq
  exact h

/-- A turn of a running command keeps the count or ends the command. -/
theorem TurnResult.inBounds {s t : State} (h : TurnResult s t) (hs : s.InBounds) : t.InBounds := by
  cases h with
  | responds v hr => exact .of_cnt_none rfl
  | rejects c hr ho h1 h2 => exact .of_cnt_none rfl
  | narrows acc hr ha ho => exact hs
  | multiplies a b hr ha ho hla hlb => exact hs
  | startsSum n x y hr ha ho hc hx hy => exact hs
  | accumulates acc i x y hr ha ho hi hi0 hx hy => exact hs
  | readsFirst n _ hr ha ho hc hp => exact hs.pairRead hp
  | readsNext acc i _ hr ha ho hi hi0 hp => exact hs.pairRead hp

/-- A step that binds no other sequence keeps the bound. -/
theorem StepResult.inBounds {m : Option Move} {u t : State} (h : StepResult m u t) (hu : u.InBounds)
    (hm : ∀ q len elems, m ≠ some (.bind q len elems)) : t.InBounds := by
  cases h with
  | runs _ hb h => exact h.inBounds hu
  | rests hb hr => exact hu
  | accepts w ws _ hb hr h => exact (takenRequest_of_accept h).inBounds
  | rejects w ws hb hr => exact .of_cnt_none rfl
  | commands w ws i _ hb hr hd h => exact (takenRequest_of_exec (s := u.withRequests ws) hb hd h).inBounds
  | presents w _ => exact hu
  | binds q len elems hm' => exact absurd hm' (hm q len elems)
  | stores ws _ =>
    obtain ⟨ha, hb⟩ := State.storeElems_len ws u
    exact hu.congr (State.storeElems_cnt ws u) ha hb
  | answers q on _ => cases q <;> exact hu
  | resets _ => exact .of_cnt_none rfl

/-! ## A running command does not stop -/

/-- Settles O13: both read `ACC`, and a read of no value faults. -/
theorem readingAbsentAccFaults : Obligations.ReadingAbsentAccFaults := by
  intro s ua ub h
  have hread : ∀ f, s.readAcc f = .fault .accNoValue := fun f => by rw [State.readAcc, h]
  exact ⟨hread _, hread _⟩

theorem readPort_answers {s : State} {q : PortId} {i : Word} (hi : i < (s.port q).len) :
    ∃ t, readPort q i s = .next t := by
  cases h : (s.port q).answers with
  | true => exact ⟨_, readPort_eq h hi⟩
  | false => exact ⟨_, readPort_silent i h⟩

/-- The two reads of a pair in one turn. -/
theorem readBoth_answers {s : State} {i : Word} (ha : i < s.pa.len) (hb : i < s.pb.len) :
    ∃ t, andThen (readPort .pa i s) (readPort .pb i) = .next t := by
  obtain ⟨u, hu⟩ := readPort_answers (q := .pa) ha
  rw [hu, andThen_next]
  obtain rfl | ⟨-, rfl⟩ := readPort_next hu
  · exact readPort_answers (q := .pb) hb
  · exact readPort_answers (q := .pb) hb

/-- Inside both sequences a turn on a pair reads, or answers as the consuming micro-operation does. -/
theorem pairTurn_answers {s : State} {i : Word} {k : Word → Word → Fetched} (p : Params) (ha : i < s.pa.len)
    (hb : i < s.pb.len) (hk : ∀ x y, ∃ t, finish (k x y) = .next t) :
    ∃ t, finish (pairTurn p i s k) = .next t := by
  unfold pairTurn
  cases s.x with
  | some x =>
    cases s.y with
    | some y => exact hk x y
    | none => exact readPort_answers (q := .pb) hb
  | none =>
    cases s.y with
    | some y => exact readPort_answers (q := .pa) ha
    | none =>
      cases p.pairOrder s.readCount with
      | aFirst => exact readPort_answers (q := .pa) ha
      | bFirst => exact readPort_answers (q := .pb) hb
      | together => exact readBoth_answers ha hb

theorem issue_narrow_answers {s : State} {acc : Wide} (ha : s.acc = some acc) :
    ∃ t, finish (issue .asmNarrow s) = .next t := by
  rw [issue_narrow]
  exact ⟨_, narrowAt_eq Config.params ha⟩

theorem issue_wmul_answers (a b : Word) (s : State) : ∃ t, finish (issue (.wmul a b) s) = .next t := by
  rw [issue_wmul]
  exact ⟨_, execWmul_eq a b s⟩

/-- The adder wraps, so a `WMAC` answers whatever the sum is (R128). -/
theorem issue_wmac_answers {s : State} {acc : Wide} (a b : Word) (ha : s.acc = some acc) :
    ∃ t, finish (issue (.wmac a b) s) = .next t := by
  rw [issue_wmac]
  exact ⟨_, wmacAt_wrap params_accOverflow a b ha⟩

theorem mulTurn_answers {s : State} (h : s.MulRunning) : ∃ t, finish (mulTurn s) = .next t := by
  obtain ⟨-, hla, hlb, -⟩ := h
  obtain ⟨a, hla⟩ := Option.isSome_iff_exists.1 hla
  obtain ⟨b, hlb⟩ := Option.isSome_iff_exists.1 hlb
  unfold mulTurn
  cases ha : s.acc with
  | some acc => exact issue_narrow_answers ha
  | none => rw [hla, hlb]; exact issue_wmul_answers a b s

theorem dotTurn_answers {s : State} {n : Word} (h : s.DotRunning n) (hb : s.InBounds) :
    ∃ t, finish (dotTurn Config.params s) = .next t := by
  have hrun := h
  obtain ⟨-, -, -, hcnt, hn, -⟩ := hrun
  obtain ⟨hna, hnb⟩ := hb n hcnt
  unfold dotTurn
  cases ha : s.acc with
  | none =>
    have hpos : 0#32 < n := (BitVec.pos_iff_ne_zero n).2 hn
    rw [hcnt]
    exact pairTurn_answers _ (Std.lt_of_lt_of_le hpos hna) (Std.lt_of_lt_of_le hpos hnb)
      fun x y => issue_wmul_answers x y _
  | some acc =>
    obtain ⟨i, hi, hlt, -⟩ := h.idx_of_acc ha
    rw [hi]
    by_cases hi0 : i = 0#32
    · simpa only [readSeq_some, if_pos hi0] using issue_narrow_answers ha
    · simpa only [readSeq_some, if_neg hi0] using
        pairTurn_answers Config.params (Std.lt_of_lt_of_le hlt hna) (Std.lt_of_lt_of_le hlt hnb)
          fun x y => issue_wmac_answers x y (s := s.consumedPair (i - 1#32)) ha

theorem commandTurn_answers {s : State} (h : s.Inv) (hs : s.busy = true) (hb : s.InBounds) :
    ∃ t, finish (commandTurn Config.params s) = .next t := by
  unfold commandTurn
  cases s.res with
  | some v => exact ⟨_, rfl⟩
  | none =>
    obtain ⟨-, -, -, hrun⟩ := h
    obtain hm | ⟨n, hd⟩ := hrun hs
    · have hanswers := mulTurn_answers hm
      obtain ⟨ho, -⟩ := hm
      rw [ho]
      exact hanswers
    · have hanswers := dotTurn_answers hd hb
      obtain ⟨ho, -⟩ := hd
      rw [ho]
      exact hanswers

/-! ## No step stops -/

/-- A busy block: its own move goes on with the command, and the world's other moves answer anyway. -/
theorem step_answers_of_busy {s : State} (h : s.Inv) (hs : s.busy = true) (hb : s.InBounds) :
    ∃ t, step s = .next t := by
  have hblock : s.BlockMoves → ∃ t, step s = .next t := fun hm => by
    rw [step_eq_finish, fetchAt_block _ hs hm]
    exact commandTurn_answers (s := s.withMoves s.moves.tail) h hs hb
  cases hm : s.moves with
  | nil => exact hblock (.inl hm)
  | cons m ms =>
    cases m with
    | turn => exact hblock (.inr ⟨ms, .inl hm⟩)
    | whole => exact hblock (.inr ⟨ms, .inr hm⟩)
    | present w | bind q len elems | store ws | answer q on | reset =>
      rw [step_eq_finish, fetchAt, hm]
      exact ⟨_, rfl⟩

theorem step_answers {s : State} (h : s.Inv) (hb : s.InBounds) : ∃ t, step s = .next t := by
  cases hs : s.busy with
  | false => exact (step_ignoresRecord hs).answers
  | true => exact step_answers_of_busy h hs hb

theorem State.KeepsBindings.head_ne_bind {s : State} (h : s.KeepsBindings) (q : PortId) (len : Word)
    (elems : List (Nat × Word)) : s.moves.head? ≠ some (.bind q len elems) := by
  intro hm
  obtain ⟨ms, hms⟩ := List.head?_eq_some_iff.1 hm
  exact h q len elems ms hms

/-- Settles O53: the step answers, and the inversion lemma of a step keeps both parts. -/
theorem stepAlwaysAnswers : Obligations.StepAlwaysAnswers := by
  intro s h hb hk
  obtain ⟨t, ht⟩ := step_answers h hb
  exact ⟨t, ht, stepKeepsTheInvariant s t h ht, (step_cases ht).inBounds hb hk.head_ne_bind⟩

end Sys2Proof.Machine

/-! PROOFS. What a command does to the ports: it reads elements and writes none (20_memory.md R42 to R47,
43_dot.md R51). -/

namespace Sys2Proof.Machine

/-! ## Instructions other than DOT leave the ports alone -/

/-- An operation that reads `ACC` and goes on to a next state found a value there (R27). -/
theorem readAcc_cases {s t : State} {f : Wide → Result} (h : s.readAcc f = .next t) :
    ∃ acc, s.acc = some acc ∧ f acc = .next t := by
  cases ha : s.acc with
  | none => rw [State.readAcc, ha] at h; cases h
  | some acc => exact ⟨acc, rfl, (readAcc_eq f ha).symm.trans h⟩

/-- A `MUL` presented to a busy block waits (R163). -/
theorem mulAt_of_busy {s : State} (p : Params) (a b : Word) (hs : s.busy = true) :
    mulAt p a b s = .next (s.present (encode (.mul a b))) := by simp [mulAt, hs]

/-- A `DOT` presented to a busy block waits (R163). -/
theorem dotAt_of_busy {s : State} (p : Params) (n x : Word) (hs : s.busy = true) :
    dotAt p n x s = .next (s.present (encode (.dot n x))) := by simp [dotAt, hs]

/-- Settles O45: a `MUL` waits or is answered, and each micro-operation writes one register. -/
theorem onlyDotReads : Obligations.OnlyDotReads := by
  intro i s t hne h
  cases i with
  | mul a b =>
    cases hs : s.busy with
    | true => cases (mulAt_of_busy Config.params a b hs).symm.trans h; exact ⟨rfl, rfl⟩
    | false => cases (mulAt_of_idle Config.params a b hs).symm.trans h; exact ⟨rfl, rfl⟩
  | dot n x => exact absurd rfl (hne n x)
  | wmul ua ub => cases (execWmul_eq ua ub s).symm.trans h; exact ⟨rfl, rfl⟩
  | wmac ua ub =>
    obtain ⟨acc, ha, -⟩ := readAcc_cases h
    cases (wmacAt_wrap params_accOverflow ua ub ha).symm.trans h
    exact ⟨rfl, rfl⟩
  | narrow ua ub =>
    obtain ⟨acc, ha, -⟩ := readAcc_cases h
    cases (narrowAt_eq Config.params ha).symm.trans h
    exact ⟨rfl, rfl⟩

/-! ## No operation of the block writes an element -/

/-- Both sequences stand in `t` as they stood in `s`, elements and lengths. -/
def State.SameSequences (s t : State) : Prop :=
  t.pa.elems = s.pa.elems ∧ t.pa.len = s.pa.len ∧ t.pb.elems = s.pb.elems ∧ t.pb.len = s.pb.len

theorem State.SameSequences.of_ports_eq {s t : State} (ha : t.pa = s.pa) (hb : t.pb = s.pb) :
    s.SameSequences t := by
  rw [State.SameSequences, ha, hb]
  exact ⟨rfl, rfl, rfl, rfl⟩

/-- What a port shows is its length and its elements (R41). -/
theorem Port.elem?_congr {p p' : Port} (he : p.elems = p'.elems) (hl : p.len = p'.len) (j : Word) :
    p.elem? j = p'.elem? j := by
  rw [Port.elem?, Port.elem?, he, hl]

theorem State.SameSequences.port {s t : State} (h : s.SameSequences t) (q : PortId) :
    (t.port q).len = (s.port q).len ∧ ∀ j, (t.port q).elem? j = (s.port q).elem? j := by
  obtain ⟨hae, hal, hbe, hbl⟩ := h
  cases q with
  | pa => exact ⟨hal, Port.elem?_congr hae hal⟩
  | pb => exact ⟨hbl, Port.elem?_congr hbe hbl⟩

theorem TakenRequest.sameSequences {s t : State} (h : TakenRequest s t) : s.SameSequences t := by
  cases h <;> exact ⟨rfl, rfl, rfl, rfl⟩

theorem PairRead.sameSequences {s t : State} {i : Word} (h : PairRead s i t) : s.SameSequences t := by
  obtain ⟨x, y, ra, rb, rfl⟩ := h.exists_eq
  exact ⟨rfl, rfl, rfl, rfl⟩

theorem decodeRequest_encode_dot (n x : Word) : decodeRequest (encode (.dot n x)) = .instr (.dot n x) := by
  simp [decodeRequest, encode, op_pack, fieldA_pack, fieldB_pack]

theorem exec_sameSequences {i : Instr} {s t : State} (h : exec i s = .next t) : s.SameSequences t := by
  by_cases hdot : ∃ n x, i = .dot n x
  · obtain ⟨n, x, rfl⟩ := hdot
    cases hs : s.busy with
    | true => cases (dotAt_of_busy Config.params n x hs).symm.trans h; exact ⟨rfl, rfl, rfl, rfl⟩
    | false => exact (takenRequest_of_exec hs (decodeRequest_encode_dot n x) h).sameSequences
  · obtain ⟨ha, hb⟩ := onlyDotReads i s t (fun n x hi => hdot ⟨n, x, hi⟩) h
    exact .of_ports_eq ha hb

/-- Settles O43: `DOT` adds to the record of its reads and the others leave the ports as they are. -/
theorem noInstructionStores : Obligations.NoInstructionStores :=
  fun _ _ _ h q => (exec_sameSequences h).port q

/-! ## No reads but those of a pair in bounds -/

/-- A turn of a running command within its program reads a pair of an index below the count, or touches
neither port. -/
theorem TurnResult.reads_cases {s t : State} (h : TurnResult s t) (hinv : s.Inv) (hs : s.busy = true) :
    (∃ n i, s.cnt = some n ∧ i < n ∧ PairRead s i t) ∨ (t.pa = s.pa ∧ t.pb = s.pb) := by
  cases h with
  | responds | rejects | narrows | multiplies | startsSum | accumulates => exact .inr ⟨rfl, rfl⟩
  | readsFirst n _ hr ha ho hc hp =>
    obtain ⟨m, -, -, -, hm, hm0, -⟩ := dotRunning_of_inv hinv hs ho
    exact .inl ⟨m, 0#32, hm, (BitVec.pos_iff_ne_zero m).2 hm0, hp⟩
  | readsNext acc i _ hr ha ho hi hi0 hp =>
    obtain ⟨n, hd⟩ := dotRunning_of_inv hinv hs ho
    obtain ⟨j, hj, hlt, -⟩ := hd.idx_of_acc ha
    cases hi.symm.trans hj
    obtain ⟨-, -, -, hn, -⟩ := hd
    exact .inl ⟨n, i, hn, hlt, hp⟩

theorem TurnResult.sameSequences {s t : State} (h : TurnResult s t) : s.SameSequences t := by
  cases h with
  | responds | rejects | narrows | multiplies | startsSum | accumulates => exact .of_ports_eq rfl rfl
  | readsFirst n _ hr ha ho hc hp => exact hp.sameSequences
  | readsNext acc i _ hr ha ho hi hi0 hp => exact hp.sameSequences

/-- On each port a turn on the pair of index `i` reads nothing, or that element, which exists. -/
theorem PairRead.reads {s t : State} {i : Word} (h : PairRead s i t) :
    (t.pa.reads = s.pa.reads ∨ i < s.pa.len ∧ t.pa.reads = s.pa.reads ++ [i]) ∧
    (t.pb.reads = s.pb.reads ∨ i < s.pb.len ∧ t.pb.reads = s.pb.reads ++ [i]) := by
  cases h with
  | waits => exact ⟨.inl rfl, .inl rfl⟩
  | readA ha => exact ⟨.inr ⟨ha, rfl⟩, .inl rfl⟩
  | readB hb => exact ⟨.inl rfl, .inr ⟨hb, rfl⟩⟩
  | readBoth ha hb => exact ⟨.inr ⟨ha, rfl⟩, .inr ⟨hb, rfl⟩⟩

/-- Settles O46: the only turns that reach the ports read a pair of an index below the count, and a read
that answers is below the length. -/
theorem readsStayWithinTheCount : Obligations.ReadsStayWithinTheCount := by
  intro s t hinv _ hs hm h
  rw [step_eq_finish, fetchAt_block _ hs hm] at h
  obtain ⟨n, i, hc, hlt, hp⟩ | ⟨ha, hb⟩ :=
    (commandTurn_cases h).reads_cases (s := s.withMoves s.moves.tail) hinv hs
  · obtain ⟨hra, hrb⟩ := hp.reads
    exact ⟨hra.imp_right fun ⟨hlen, hr⟩ => ⟨n, i, hc, hlt, hlen, hr⟩,
      hrb.imp_right fun ⟨hlen, hr⟩ => ⟨n, i, hc, hlt, hlen, hr⟩⟩
  · exact ⟨.inl (congrArg Port.reads ha), .inl (congrArg Port.reads hb)⟩

/-! ## No step of the block writes an element -/

theorem State.KeepsElements.head_ne_store {s : State} (h : s.KeepsElements)
    (ws : List (PortId × Word × Word)) : s.moves.head? ≠ some (.store ws) := by
  intro hm
  obtain ⟨ms, hms⟩ := List.head?_eq_some_iff.1 hm
  exact h.2 ws ms hms

/-- Only a binding or a write of the world changes a sequence. -/
theorem StepResult.sameSequences {m : Option Move} {u t : State} (h : StepResult m u t)
    (hbind : ∀ q len elems, m ≠ some (.bind q len elems)) (hstore : ∀ ws, m ≠ some (.store ws)) :
    u.SameSequences t := by
  cases h with
  | runs _ hb h => exact h.sameSequences
  | accepts w ws _ hb hr h => exact (takenRequest_of_accept h).sameSequences
  | commands w ws i _ hb hr hd h => exact exec_sameSequences (s := u.withRequests ws) h
  | rests | rejects | presents | resets => exact .of_ports_eq rfl rfl
  | binds q len elems hm => exact absurd hm (hbind q len elems)
  | stores ws hm => exact absurd hm (hstore ws)
  | answers q on hm => cases q <;> exact ⟨rfl, rfl, rfl, rfl⟩

/-- Settles O44: the inversion lemma of a step, with the two moves that change a sequence excluded. -/
theorem blockNeverWritesMemory : Obligations.BlockNeverWritesMemory :=
  fun _ _ hk h => (step_cases h).sameSequences hk.1.head_ne_bind hk.head_ne_store

/-! ## The reads of a successful DOT -/

theorem mem_loopOrder {k : Nat} (hk : k < 2 ^ 32) (i : Word) : i ∈ loopOrder k ↔ i ≠ 0#32 ∧ i.toNat ≤ k := by
  induction k with
  | zero => simp [loopOrder, BitVec.toNat_eq]
  | succ k ih =>
    have hi : i = BitVec.ofNat 32 (k + 1) ↔ i.toNat = k + 1 := by
      rw [BitVec.toNat_eq, BitVec.toNat_ofNat, Nat.mod_eq_of_lt hk]
    rw [loopOrder_succ, List.mem_cons, ih (by omega), hi, ne_eq, BitVec.toNat_eq, BitVec.toNat_ofNat]
    omega

theorem loopOrder_nodup {k : Nat} (hk : k < 2 ^ 32) : (loopOrder k).Nodup := by
  induction k with
  | zero => exact List.nodup_nil
  | succ k ih =>
    have hk' : k < 2 ^ 32 := by omega
    rw [loopOrder_succ, List.nodup_cons, mem_loopOrder hk', BitVec.toNat_ofNat, Nat.mod_eq_of_lt hk]
    exact ⟨fun h => absurd h.2 (by omega), ih hk'⟩

theorem loopOrder_length (k : Nat) : (loopOrder k).length = k := by simp [loopOrder]

/-- The loop counts down. -/
theorem toNat_of_loopOrder_getElem? {k j : Nat} {i : Word} (hk : k < 2 ^ 32)
    (h : (loopOrder k)[j]? = some i) : i.toNat = k - j := by
  induction k generalizing j with
  | zero => cases h
  | succ k ih =>
    rw [loopOrder_succ] at h
    cases j with
    | zero => cases h; rw [BitVec.toNat_ofNat, Nat.mod_eq_of_lt hk]; rfl
    | succ j => rw [ih (by omega) (List.getElem?_cons_succ.symm.trans h), Nat.add_sub_add_right]

/-- Settles O31: the record grows by `readOrder`, 0 and then the indices of the loop. -/
theorem dotReadsEachElementOnce : Obligations.DotReadsEachElementOnce := by
  intro s n x h
  have ⟨_, hn0, _⟩ := h
  have hn : 0 < n.toNat := BitVec.lt_def.1 ((BitVec.pos_iff_ne_zero n).2 hn0)
  have hlt := n.isLt
  have hk : n.toNat - 1 < 2 ^ 32 := by omega
  have hmem := mem_loopOrder hk
  refine ⟨_, readOrder n.toNat, dotAt_of_ready params_accOverflow x h, rfl, rfl, ?_, ?_, ?_, rfl, ?_⟩
  · exact List.nodup_cons.2 ⟨fun h0 => ((hmem _).1 h0).1 rfl, loopOrder_nodup hk⟩
  · intro i
    rw [readOrder_eq, List.mem_cons, hmem, BitVec.lt_def, ne_eq, BitVec.toNat_eq, BitVec.toNat_ofNat]
    omega
  · rw [readOrder_eq, List.length_cons, loopOrder_length, Nat.sub_add_cancel hn]
  · intro k i hi
    exact toNat_of_loopOrder_getElem? hk (List.getElem?_cons_succ.symm.trans hi)

end Sys2Proof.Machine

/-! PROOFS. What the caller and other agents do to the sequences: a binding and the writes of one moment
(20_memory.md R40, R41, R55, R131). -/

namespace Sys2Proof.Machine

/-! ## A binding -/

@[simp] theorem State.port_setPort_same (s : State) (q : PortId) (p : Port) : (s.setPort q p).port q = p := by
  cases q <;> rfl

theorem State.port_setPort_other (s : State) {q r : PortId} (p : Port) (h : r ≠ q) :
    (s.setPort q p).port r = s.port r := by
  cases q with
  | pa => cases r with
    | pa => exact absurd rfl h
    | pb => rfl
  | pb => cases r with
    | pa => rfl
    | pb => exact absurd rfl h

/-- A bound sequence shows its length and its listing, and no element beyond the length (R41). -/
theorem Port.elem?_rebind (p : Port) (len : Word) (elems : List (Nat × Word)) (j : Word) :
    (p.rebind len elems).elem? j = if j < len then some (elemAt elems j.toNat) else none := by
  by_cases hj : j < len
  · rw [if_pos hj, Port.elem?_of_lt (by exact hj)]
    exact congrArg some (elemAt_boundElems len elems (BitVec.lt_def.1 hj))
  · rw [if_neg hj, Port.elem?, if_neg (by exact hj)]

theorem step_bind {s : State} {q : PortId} {len : Word} {elems : List (Nat × Word)} {ms : List Move}
    (hm : s.moves = .bind q len elems :: ms) :
    step s = .next ((s.withMoves ms).setPort q ((s.port q).rebind len elems)) := by
  rw [step_eq_finish, fetchAt, hm]
  cases q <;> rfl

/-- Settles O58: the port takes the listing as `Port.rebind` gives it, and nothing else is replaced. -/
theorem bindingPresentsTheSequence : Obligations.BindingPresentsTheSequence := by
  intro s q len elems ms hm
  refine ⟨_, step_bind hm, ?_⟩
  rw [State.port_setPort_same]
  refine ⟨rfl, Port.elem?_rebind _ len elems, fun r hr => ?_, rfl, rfl, ?_⟩
  · rw [State.port_setPort_other _ _ hr]
    cases r <;> rfl
  · cases q <;> rfl

/-! ## The writes of one moment -/

/-- The last of the writes to element `j` of the port `q` (log entry 24). -/
def lastWrite (writes : List (PortId × Word × Word)) (q : PortId) (j : Word) : Option (PortId × Word × Word) :=
  (writes.filter fun e => e.1 = q && e.2.1 = j).getLast?

/-- A write stands where no later one names its element. -/
theorem lastWrite_cons (e : PortId × Word × Word) (ws : List (PortId × Word × Word)) (q : PortId) (j : Word) :
    lastWrite (e :: ws) q j =
      if e.1 = q ∧ e.2.1 = j then some ((lastWrite ws q j).getD e) else lastWrite ws q j := by
  by_cases h : e.1 = q ∧ e.2.1 = j
  · simp [lastWrite, h, List.getLast?_cons]
  · rw [if_neg h, lastWrite, List.filter_cons_of_neg (by simpa using h)]
    rfl

/-- One write of the list: the element named takes the value if it exists, every other reads as before. -/
theorem State.elem?_setPort_write {s : State} {q : PortId} (h : (s.port q).wf = true) (i v : Word)
    (r : PortId) (j : Word) :
    ((s.setPort q ((s.port q).write i v)).port r).elem? j =
      if q = r ∧ i = j ∧ j < (s.port r).len then some v else (s.port r).elem? j := by
  by_cases hqr : q = r
  · subst hqr
    rw [State.port_setPort_same, Port.elem?_write h]
    simp only [true_and]
  · rw [State.port_setPort_other _ _ (Ne.symm hqr), if_neg fun hc => hqr hc.1]

theorem State.len_port_storeElems (s : State) (ws : List (PortId × Word × Word)) (q : PortId) :
    ((s.storeElems ws).port q).len = (s.port q).len := by
  obtain ⟨ha, hb⟩ := State.storeElems_len ws s
  cases q with
  | pa => exact ha
  | pb => exact hb

theorem Port.elem?_of_not_lt {p : Port} {i : Word} (h : ¬ i < p.len) : p.elem? i = none := by
  rw [Port.elem?, if_neg h]

/-- Every element reads as the last write to it, or as before where none names it (R55, R131). -/
theorem State.elem?_storeElems {s : State} (h : s.Inv) (ws : List (PortId × Word × Word)) (q : PortId) (j : Word) :
    ((s.storeElems ws).port q).elem? j =
      if j < (s.port q).len then ((lastWrite ws q j).map fun e => e.2.2).or ((s.port q).elem? j) else none := by
  by_cases hj : j < (s.port q).len
  case neg => rw [if_neg hj, Port.elem?_of_not_lt (by rwa [State.len_port_storeElems])]
  rw [if_pos hj]
  induction ws generalizing s with
  | nil => rfl
  | cons e ws ih =>
    obtain ⟨r, i, v⟩ := e
    have hwf := h.port_wf r
    have hlen := State.len_port_storeElems s [(r, i, v)] q
    rw [State.storeElems, ih (h.setPort r (Port.write_wf hwf i v)) (hlen.symm ▸ hj),
      State.elem?_setPort_write hwf, lastWrite_cons]
    by_cases hw : r = q ∧ i = j
    · cases lastWrite ws q j <;> simp [hw, hj]
    · simp [hw, ← and_assoc]

/-- Writes change the elements behind the ports and nothing else. -/
theorem State.storeElems_eq (s : State) (ws : List (PortId × Word × Word)) :
    s.storeElems ws = { s with pa := { s.pa with elems := (s.storeElems ws).pa.elems },
                               pb := { s.pb with elems := (s.storeElems ws).pb.elems } } := by
  induction ws generalizing s with
  | nil => rfl
  | cons e ws ih =>
    obtain ⟨q, i, v⟩ := e
    refine (ih (s.setPort q ((s.port q).write i v))).trans ?_
    cases q <;> simp [State.storeElems, State.setPort]

theorem step_store {s : State} {ws : List (PortId × Word × Word)} {ms : List Move} (hm : s.moves = .store ws :: ms) :
    step s = .next ((s.withMoves ms).storeElems ws) := by
  rw [step_eq_finish, fetchAt, hm]
  rfl

/-- Settles O59: the writes one after another, the last one to an element standing. -/
theorem writesOfOneMomentAreAllSeen : Obligations.WritesOfOneMomentAreAllSeen := by
  intro s ws ms hinv hm
  refine ⟨_, step_store hm, fun q j => ?_, State.storeElems_eq (s.withMoves ms) ws⟩
  have hport : (s.withMoves ms).port q = s.port q := by cases q <;> rfl
  have hread := State.elem?_storeElems (s := s.withMoves ms) hinv ws q j
  rw [State.len_port_storeElems, hport]
  rw [hport, lastWrite] at hread
  refine ⟨rfl, hread.trans ?_⟩
  cases (ws.filter fun e => e.1 = q && e.2.1 = j).getLast? with
  | some e => rfl
  | none =>
    by_cases hj : j < (s.port q).len
    · rw [if_pos hj]; rfl
    · rw [if_neg hj, Port.elem?_of_not_lt hj]

/-- Settles O47: the case of one write, which is the last write to its element and to no other. -/
theorem racingWriteIsSeenByLaterReadsOnly : Obligations.RacingWriteIsSeenByLaterReadsOnly := by
  intro s q i v ms hinv hm hi
  obtain ⟨t, hstep, hread, hrest⟩ := writesOfOneMomentAreAllSeen s [(q, i, v)] ms hinv hm
  refine ⟨t, hstep, ?_, fun r j hne => ?_, hrest⟩
  · simpa [hi] using (hread q i).2
  · have hother : ¬ (q = r ∧ i = j) := fun h => hne ⟨h.1.symm, h.2.symm⟩
    simpa [hother] using (hread r j).2

end Sys2Proof.Machine

/-! PROOFS. The small-step program of `DOT` (43_dot.md R122) reaches the state the whole command reaches
(R123), whatever the order of the two reads of each pair (R51). -/

namespace Sys2Proof.Machine

/-! ## Turns of an undisturbed block -/

/-- One turn takes the block from `s` to `u`, whatever the world does afterwards. -/
def Turns (s u : State) : Prop :=
  ∀ ms, finish (turn Config.params (s.withMoves ms)) = .next (u.withMoves ms)

/-- `k` turns, and any more the world grants, take the block from `s` to the end `t`. -/
def EndsWithin (k : Nat) (s t : State) : Prop :=
  ∀ m, k ≤ m → runSteps m (s.withMoves (List.replicate m .turn)) = .next (t.withMoves [])

theorem EndsWithin.rest {t : State} (hb : t.busy = false) (hr : t.requests = []) : EndsWithin 0 t t :=
  fun m _ => runSteps_rest m t hb hr

theorem EndsWithin.mono {k l : Nat} {s t : State} (h : EndsWithin k s t) (hkl : k ≤ l) : EndsWithin l s t :=
  fun m hm => h m (hkl.trans hm)

theorem Turns.endsWithin {s u t : State} {k : Nat} (hs : Turns s u) (hu : EndsWithin k u t) :
    EndsWithin (k + 1) s t := by
  intro m hm
  obtain ⟨m, rfl⟩ := Nat.exists_eq_add_of_le' (Nat.le_of_add_left_le hm)
  rw [List.replicate_succ, runSteps_succ, step_turn, hs, andThen_next]
  exact hu m (Nat.le_of_succ_le_succ hm)

/-! ## What a turn of a running DOT does -/

/-- A `DOT` is running that has no result yet, and its reads are answered. -/
def State.InDot (s : State) : Prop :=
  s.busy = true ∧ s.res = none ∧ s.opl = some 0b10#2 ∧ s.pa.answers = true ∧ s.pb.answers = true

theorem turn_of_inDot {s : State} (p : Params) (h : s.InDot) : turn p s = dotTurn p s := by
  obtain ⟨hb, hr, ho, -, -⟩ := h
  rw [turn, if_pos hb, commandTurn, hr, ho]
  rfl

/-- The pair of index `i` is next: index 0 before the `WMUL`, `IDX` after it (R122). -/
def State.AtPair (s : State) (i : Word) : Prop :=
  s.InDot ∧ ((s.acc = none ∧ (∃ n, s.cnt = some n) ∧ i = 0#32) ∨
    (∃ acc, s.acc = some acc) ∧ s.idx = some i ∧ i ≠ 0#32)

theorem State.AtPair.latchElem {s : State} {i : Word} (h : s.AtPair i) (q : PortId) (v : Word) :
    (s.latchElem q i v).AtPair i := by
  cases q <;> exact h

/-- There the turn is spent on that pair. -/
theorem State.AtPair.turn_eq {s : State} {i : Word} (p : Params) (h : s.AtPair i) :
    ∃ k, turn p s = pairTurn p i s k := by
  obtain ⟨hdot, ⟨ha, ⟨n, hc⟩, rfl⟩ | ⟨⟨acc, ha⟩, hi, hi0⟩⟩ := h
  · rw [turn_of_inDot p hdot, dotTurn, ha, hc]
    exact ⟨_, rfl⟩
  · rw [turn_of_inDot p hdot, dotTurn, ha, hi, readSeq_some, if_neg hi0]
    exact ⟨_, rfl⟩

theorem State.AtPair.turns {s u : State} {i : Word} (h : s.AtPair i)
    (hp : ∀ k ms, finish (pairTurn Config.params i (s.withMoves ms) k) = .next (u.withMoves ms)) : Turns s u := by
  intro ms
  obtain ⟨k, hk⟩ := State.AtPair.turn_eq (s := s.withMoves ms) Config.params h
  rw [hk, hp]

/-! ## The reads of a pair -/

/-- The element of index `i` has been read on the port `q`. -/
def State.afterRead (s : State) (q : PortId) (i : Word) : State :=
  s.latchElem q i (elemAt (s.port q).elems i.toNat)

/-- Both elements of a pair have been read. -/
def State.afterPair (s : State) (i : Word) : State := (s.afterRead .pa i).afterRead .pb i

/-- The port `q` lacks its element, and its turn has come: the other has been read, or is to come after it. -/
def State.ReadsNext (s : State) : PortId → Prop
  | .pa => s.x = none ∧ (s.y = none → Config.params.pairOrder s.readCount = .aFirst)
  | .pb => s.y = none ∧ (s.x = none → Config.params.pairOrder s.readCount = .bFirst)

theorem pairTurn_of_readsNext {s : State} {q : PortId} (h : s.ReadsNext q) (i : Word) (k : Word → Word → Fetched) :
    pairTurn Config.params i s k = .done (readPort q i s) := by
  cases q with
  | pa =>
    obtain ⟨hx, hord⟩ := h
    cases hy : s.y with
    | some y => simp only [pairTurn, hx, hy]
    | none => simp only [pairTurn, hx, hy, hord hy]
  | pb =>
    obtain ⟨hy, hord⟩ := h
    cases hx : s.x with
    | some x => simp only [pairTurn, hx, hy]
    | none => simp only [pairTurn, hx, hy, hord hx]

theorem State.ReadsNext.withMoves {s : State} {q : PortId} (h : s.ReadsNext q) (ms : List Move) :
    (s.withMoves ms).ReadsNext q := by
  cases q <;> exact h

theorem State.InDot.readPort_eq {s : State} {q : PortId} {i : Word} (h : s.InDot) (hi : i < (s.port q).len) :
    readPort q i s = .next (s.afterRead q i) := by
  obtain ⟨-, -, -, hansA, hansB⟩ := h
  cases q with
  | pa => exact Machine.readPort_eq hansA hi
  | pb => exact Machine.readPort_eq hansB hi

theorem State.AtPair.turns_read {s : State} {q : PortId} {i : Word} (h : s.AtPair i) (hq : s.ReadsNext q)
    (hi : i < (s.port q).len) : Turns s (s.afterRead q i) := by
  refine h.turns fun k ms => ?_
  rw [pairTurn_of_readsNext (hq.withMoves ms), finish]
  cases q <;> exact State.InDot.readPort_eq (s := s.withMoves ms) h.1 hi

theorem State.AtPair.turns_readBoth {s : State} {i : Word} (h : s.AtPair i) (hx : s.x = none) (hy : s.y = none)
    (ha : i < s.pa.len) (hb : i < s.pb.len) (hord : Config.pairOrder s.readCount = .together) :
    Turns s (s.afterPair i) := by
  refine h.turns fun k ms => ?_
  have hord' : Config.params.pairOrder (s.withMoves ms).readCount = .together := hord
  have hreadA := State.InDot.readPort_eq (s := s.withMoves ms) (q := .pa) h.1 ha
  have hreadB := State.InDot.readPort_eq (s := (s.withMoves ms).afterRead .pa i) (q := .pb) h.1 hb
  simp only [pairTurn, State.withMoves_x, State.withMoves_y, hx, hy, hord', finish, hreadA, andThen_next]
  exact hreadB

/-- A pair takes one turn or two, and whichever element comes first both stand at the end (R51). -/
theorem State.AtPair.endsWithin {s t : State} {i : Word} {k : Nat} (h : s.AtPair i) (hx : s.x = none)
    (hy : s.y = none) (ha : i < s.pa.len) (hb : i < s.pb.len) (hk : EndsWithin k (s.afterPair i) t) :
    EndsWithin (k + 2) s t := by
  cases hord : Config.pairOrder s.readCount with
  | aFirst =>
    have hfirst := h.turns_read (q := .pa) ⟨hx, fun _ => hord⟩ ha
    have hsecond : Turns (s.afterRead .pa i) (s.afterPair i) :=
      (h.latchElem .pa _).turns_read (q := .pb) ⟨hy, fun h' => nomatch h'⟩ hb
    exact hfirst.endsWithin (hsecond.endsWithin hk)
  | bFirst =>
    have hfirst := h.turns_read (q := .pb) ⟨hy, fun _ => hord⟩ hb
    have hsecond : Turns (s.afterRead .pb i) (s.afterPair i) :=
      (h.latchElem .pb _).turns_read (q := .pa) ⟨hx, fun h' => nomatch h'⟩ ha
    exact hfirst.endsWithin (hsecond.endsWithin hk)
  | together => exact ((h.turns_readBoth hx hy ha hb hord).endsWithin hk).mono (Nat.le_succ _)

/-! ## The micro-operations -/

/-- The `WMUL` of pair 0, once it has been read. -/
theorem turns_wmul {s : State} {n x y : Word} (h : s.InDot) (ha : s.acc = none) (hc : s.cnt = some n)
    (hx : s.x = some x) (hy : s.y = some y) :
    Turns s ((s.consumedPair (n - 1#32)).withAcc (wideProduct x y)) := by
  intro ms
  rw [turn_of_inDot (s := s.withMoves ms) _ h]
  simp only [dotTurn, State.withMoves_acc, ha, State.withMoves_cnt, hc, readSeq_some, pairTurn,
    State.withMoves_x, State.withMoves_y, hx, hy, issue_wmul]
  rfl

/-- The `WMAC` of a later pair. -/
theorem turns_wmac {s : State} {i x y : Word} {acc : Wide} (h : s.InDot) (ha : s.acc = some acc)
    (hi : s.idx = some i) (hi0 : i ≠ 0#32) (hx : s.x = some x) (hy : s.y = some y) :
    Turns s ((s.consumedPair (i - 1#32)).withAcc (acc + wideProduct x y)) := by
  intro ms
  rw [turn_of_inDot (s := s.withMoves ms) _ h]
  simp only [dotTurn, State.withMoves_acc, ha, State.withMoves_idx, hi, readSeq_some, if_neg hi0, pairTurn,
    State.withMoves_x, State.withMoves_y, hx, hy, issue_wmac]
  exact wmacAt_wrap params_accOverflow x y ha

/-- The `NARROW` after the last pair. -/
theorem turns_narrow {s : State} {acc : Wide} (h : s.InDot) (ha : s.acc = some acc) (hi : s.idx = some 0#32) :
    Turns s (s.withRes (narrowed Config.build acc)) := by
  intro ms
  rw [turn_of_inDot (s := s.withMoves ms) _ h]
  simp only [dotTurn, State.withMoves_acc, ha, State.withMoves_idx, hi, readSeq_some, if_true, issue_narrow]
  exact narrowAt_eq Config.params ha

/-- The response, once `RES` holds a value. -/
theorem turns_respond {s : State} {v : Word} (hb : s.busy = true) (hr : s.res = some v) :
    Turns s (s.responded (.ok v)) := by
  intro ms
  simp only [turn, State.withMoves_busy, hb, if_true, commandTurn, State.withMoves_res, hr]
  rfl

/-! ## The program -/

/-- A running `DOT` between two pairs, with no other request waiting. -/
def State.BetweenPairs (s : State) : Prop := s.InDot ∧ s.x = none ∧ s.y = none ∧ s.requests = []

/-- `NARROW ; respond` in two turns. -/
theorem endsWithin_narrowRespond {s t : State} {acc : Wide} (h : s.BetweenPairs) (ha : s.acc = some acc)
    (hi : s.idx = some 0#32) (ht : narrowRespond Config.params s = .next t) : EndsWithin 2 s t := by
  obtain ⟨hdot, -, -, hreq⟩ := h
  cases (narrowRespond_eq Config.params ha).symm.trans ht
  have hresp : Turns (s.withRes (narrowed Config.build acc)) (s.responded (.ok (narrowed Config.build acc))) :=
    turns_respond hdot.1 rfl
  exact (turns_narrow hdot ha hi).endsWithin (hresp.endsWithin (.rest rfl hreq))

/-- Where a pair is read and consumed in one step, the state is that of the small steps. -/
theorem State.withAcc_consumedPair_afterPair {s : State} (h : s.BetweenPairs) (i j : Word) (v : Wide) :
    ((s.afterPair i).consumedPair j).withAcc v = ((s.loggedPair i).withIdx j).withAcc v := by
  obtain ⟨-, hx, hy, -⟩ := h
  cases s
  cases hx
  cases hy
  rfl

/-- Pair 0: at most two turns for its reads and one for its `WMUL`. -/
theorem endsWithin_firstPair {s t : State} {n : Word} {k : Nat} (h : s.BetweenPairs) (ha : s.acc = none)
    (hc : s.cnt = some n) (hla : 0#32 < s.pa.len) (hlb : 0#32 < s.pb.len)
    (hk : EndsWithin k (((s.loggedPair 0#32).withIdx (n - 1#32)).withAcc
      (wideProduct (elemAt s.pa.elems 0) (elemAt s.pb.elems 0))) t) : EndsWithin (k + 3) s t := by
  rw [← State.withAcc_consumedPair_afterPair h] at hk
  obtain ⟨hdot, hx, hy, -⟩ := h
  have hpair : s.AtPair 0#32 := ⟨hdot, .inl ⟨ha, ⟨n, hc⟩, rfl⟩⟩
  exact hpair.endsWithin hx hy hla hlb ((turns_wmul (s := s.afterPair 0#32) hdot ha hc rfl rfl).endsWithin hk)

/-- A later pair: at most two turns for its reads and one for its `WMAC`. -/
theorem endsWithin_nextPair {s t : State} {i : Word} {acc : Wide} {k : Nat} (h : s.BetweenPairs)
    (ha : s.acc = some acc) (hi : s.idx = some i) (hi0 : i ≠ 0#32) (hla : i < s.pa.len) (hlb : i < s.pb.len)
    (hk : EndsWithin k (((s.loggedPair i).withIdx (i - 1#32)).withAcc
      (acc + wideProduct (elemAt s.pa.elems i.toNat) (elemAt s.pb.elems i.toNat))) t) :
    EndsWithin (k + 3) s t := by
  rw [← State.withAcc_consumedPair_afterPair h] at hk
  obtain ⟨hdot, hx, hy, -⟩ := h
  have hpair : s.AtPair i := ⟨hdot, .inr ⟨⟨acc, ha⟩, hi, hi0⟩⟩
  exact hpair.endsWithin hx hy hla hlb ((turns_wmac (s := s.afterPair i) hdot ha hi hi0 rfl rfl).endsWithin hk)

/-- The loop of R122 from `IDX = k`: at most three turns for each pair left, and two for the end. -/
theorem endsWithin_dotLoop {k : Nat} (hk : k < 2 ^ 32) {s t : State} {acc : Wide} (h : s.BetweenPairs)
    (ha : s.acc = some acc) (hi : s.idx = some (BitVec.ofNat 32 k)) (hla : k < s.pa.len.toNat)
    (hlb : k < s.pb.len.toNat)
    (ht : andThen (dotLoop Config.params k s) (narrowRespond Config.params) = .next t) :
    EndsWithin (3 * k + 2) s t := by
  induction k generalizing s acc with
  | zero => exact endsWithin_narrowRespond h ha hi ht
  | succ k ih =>
    have hnat : (BitVec.ofNat 32 (k + 1)).toNat = k + 1 := by rw [BitVec.toNat_ofNat, Nat.mod_eq_of_lt hk]
    have hi0 : BitVec.ofNat 32 (k + 1) ≠ 0#32 := fun h0 => by simp [h0] at hnat
    have hla' : BitVec.ofNat 32 (k + 1) < s.pa.len := by rwa [BitVec.lt_def, hnat]
    have hlb' : BitVec.ofNat 32 (k + 1) < s.pb.len := by rwa [BitVec.lt_def, hnat]
    have hpred : BitVec.ofNat 32 (k + 1) - 1#32 = BitVec.ofNat 32 k := by
      rw [BitVec.ofNat_add, BitVec.add_sub_cancel]
    rw [dotLoop, withPair_eq _ hla' hlb', wmacAt_wrap params_accOverflow (acc := acc) _ _ (by exact ha),
      andThen_next] at ht
    refine endsWithin_nextPair h ha hi hi0 hla' hlb' ?_
    rw [hpred]
    exact ih (by omega) h rfl rfl (Nat.lt_of_succ_lt hla) (Nat.lt_of_succ_lt hlb) ht

/-- The computation of R122 from an accepted `DOT` within its sequences. -/
theorem endsWithin_dotRun {s t : State} {n : Word} (h : s.BetweenPairs) (ha : s.acc = none) (hc : s.cnt = some n)
    (hn : n ≠ 0#32) (hla : n ≤ s.pa.len) (hlb : n ≤ s.pb.len) (ht : dotRun Config.params n s = .next t) :
    EndsWithin (3 * n.toNat + 2) s t := by
  have hpos : 0#32 < n := (BitVec.pos_iff_ne_zero n).2 hn
  have hpos' : 0 < n.toNat := BitVec.lt_def.1 hpos
  have hla0 : 0#32 < s.pa.len := Std.lt_of_lt_of_le hpos hla
  have hlb0 : 0#32 < s.pb.len := Std.lt_of_lt_of_le hpos hlb
  have hlast : n.toNat - 1 < n.toNat := Nat.sub_lt hpos' one_pos
  have hidx : n - 1#32 = BitVec.ofNat 32 (n.toNat - 1) := by bv_omega
  rw [dotRun, withPair_eq _ hla0 hlb0, execWmul_eq, andThen_next] at ht
  have hloop := endsWithin_dotLoop (hlast.trans n.isLt) (by exact h) rfl (congrArg some hidx)
    (by exact hlast.trans_le hla) (by exact hlast.trans_le hlb) ht
  exact (endsWithin_firstPair h ha hc hla0 hlb0 hloop).mono (by omega)

/-! ## Acceptance -/

theorem accept_dot (n x : Word) (s : State) :
    accept (encode (.dot n x)) s =
      if s.dotInvalid n then raiseError .invalidArgument s else .next (s.accepted 0b10#2 n x) := by
  simp [accept, encode, op_pack, fieldA_pack, fieldB_pack]

/-- An idle block takes the first request waiting. -/
theorem turns_accept {s u : State} {w : OpWord} {ws : List OpWord} (hs : s.busy = false)
    (hr : s.requests = w :: ws) (h : ∀ ms, accept w ((s.withRequests ws).withMoves ms) = .next (u.withMoves ms)) :
    Turns s u := by
  intro ms
  simp only [turn, State.withMoves_busy, hs, State.withMoves_requests, hr]
  exact h ms

/-- A presented `DOT` ends within `3n + 3` turns where the whole command ends (R122, R123). -/
theorem endsWithin_dot {s : State} {n x : Word} (hs : s.busy = false) (hpa : s.pa.answers = true)
    (hpb : s.pb.answers = true) :
    ∃ t, exec (.dot n x) (s.withRequests []) = .next t ∧ t.moves = s.moves ∧
      EndsWithin (3 * n.toNat + 3) (s.withRequests [encode (.dot n x)]) t := by
  cases hn : s.dotInvalid n with
  | true =>
    have hend : Turns (s.withRequests [encode (.dot n x)]) ((s.withRequests []).responded .invalidArgument) :=
      turns_accept hs rfl fun ms => by
        rw [accept_dot, if_pos (by exact hn)]; rfl
    exact ⟨_, dotAt_of_invalid (s := s.withRequests []) Config.params x hs hn, rfl,
      (hend.endsWithin (.rest rfl rfl)).mono (by omega)⟩
  | false =>
    obtain ⟨hn0, hla, hlb⟩ := dotInvalid_eq_false.1 hn
    have hready : (s.withRequests []).ReadyForDot n := ⟨hs, hn0, hla, hlb, hpa, hpb⟩
    have hstart : Turns (s.withRequests [encode (.dot n x)]) ((s.withRequests []).accepted 0b10#2 n x) :=
      turns_accept hs rfl fun ms => by
        rw [accept_dot, if_neg (by exact ne_true_of_eq_false hn)]; rfl
    have hbetween : ((s.withRequests []).accepted 0b10#2 n x).BetweenPairs :=
      ⟨⟨rfl, rfl, rfl, hpa, hpb⟩, rfl, rfl, rfl⟩
    have hrun := dotRun_eq (s := (s.withRequests []).accepted 0b10#2 n x) params_accOverflow
      (BitVec.lt_def.1 ((BitVec.pos_iff_ne_zero n).2 hn0)) hla hlb
    exact ⟨_, dotAt_of_ready params_accOverflow x hready, rfl,
      hstart.endsWithin (endsWithin_dotRun hbetween rfl rfl hn0 hla hlb hrun)⟩

/-- Settles O55: turn by turn the small steps pass through the states of the whole command, pair by pair. -/
theorem smallStepsReachTheWholeDot : Obligations.SmallStepsReachTheWholeDot := by
  intro s n x hs hpa hpb
  obtain ⟨t, hexec, hmoves, hend⟩ := endsWithin_dot (s := s.withMoves []) (n := n) (x := x) hs hpa hpb
  have ht : t.withMoves [] = t := by rw [← t.withMoves_moves_self, hmoves]; rfl
  exact (hend _ le_rfl).trans (ht.symm ▸ hexec.symm)

end Sys2Proof.Machine

/-! PROOFS. The formats of the block: decoding and encoding agree (30_encoding.md R60 to R70), and what a
response word carries (R65). -/

namespace Sys2Proof.Machine

/-! ## A word decodes by its three fields -/

theorem decodeRequest_pack (op : BitVec 2) (a b : Word) :
    decodeRequest (OpWord.pack op a b) =
      if op = 0b01#2 then .instr (.mul a b)
      else if op = 0b10#2 then .instr (.dot a b)
      else .reservedRequest op := by
  simp only [decodeRequest, op_pack, fieldA_pack, fieldB_pack]

theorem decodeUop_pack (op : BitVec 2) (a b : Word) :
    decodeUop (OpWord.pack op a b) =
      if op = 0b01#2 then .instr (.wmul a b)
      else if op = 0b10#2 then .instr (.wmac a b)
      else if op = 0b11#2 then .instr (.narrow a b)
      else .microOpNeverIssued := by
  simp only [decodeUop, op_pack, fieldA_pack, fieldB_pack]

/-- Settles O1: a word is its three fields, and the decoder looks at them alone. -/
theorem requestDecodingIsTotal : Obligations.RequestDecodingIsTotal :=
  ⟨fun w => ⟨OpWord.op w, OpWord.fieldA w, OpWord.fieldB w, (pack_fields w).symm⟩, decodeRequest_pack⟩

/-- Settles O2: the four codes, each looked up in the table of R66. -/
theorem microOpDecodingFollowsTheCode : Obligations.MicroOpDecodingFollowsTheCode :=
  fun a b => ⟨decodeUop_pack 0b00#2 a b, decodeUop_pack 0b01#2 a b, decodeUop_pack 0b10#2 a b,
    decodeUop_pack 0b11#2 a b⟩

/-- Settles O3: each format's decoder finds the instruction's own code and both of its fields. -/
theorem encodeThenDecodeIsIdentity : Obligations.EncodeThenDecodeIsIdentity := by
  intro i
  cases i with
  | mul a b => exact decodeRequest_pack 0b01#2 a b
  | dot n x => exact decodeRequest_pack 0b10#2 n x
  | wmul ua ub => exact decodeUop_pack 0b01#2 ua ub
  | wmac ua ub => exact decodeUop_pack 0b10#2 ua ub
  | narrow ua ub => exact decodeUop_pack 0b11#2 ua ub

/-! ## No bit is dropped -/

/-- The word of an instruction is its code and the fields that stand in the word (R61, R66). -/
theorem pack_of_op {w : OpWord} {op : BitVec 2} (h : OpWord.op w = op) :
    OpWord.pack op (OpWord.fieldA w) (OpWord.fieldB w) = w := by
  rw [← h, pack_fields]

theorem encode_of_decodeRequest {w : OpWord} {i : Instr} (h : decodeRequest w = .instr i) :
    encode i = w ∧ i.format = .request := by
  unfold decodeRequest at h
  split at h
  · cases h; exact ⟨pack_of_op ‹_›, rfl⟩
  · split at h
    · cases h; exact ⟨pack_of_op ‹_›, rfl⟩
    · cases h

theorem encode_of_decodeUop {w : OpWord} {i : Instr} (h : decodeUop w = .instr i) :
    encode i = w ∧ i.format = .microOp := by
  unfold decodeUop at h
  split at h
  · cases h; exact ⟨pack_of_op ‹_›, rfl⟩
  · split at h
    · cases h; exact ⟨pack_of_op ‹_›, rfl⟩
    · split at h
      · cases h; exact ⟨pack_of_op ‹_›, rfl⟩
      · cases h

/-- Settles O4: the code a decoder has found is the code it encodes to, and the fields are kept whole. -/
theorem decodeThenEncodeIsIdentity : Obligations.DecodeThenEncodeIsIdentity := by
  intro f w i h
  cases f with
  | request => exact encode_of_decodeRequest h
  | microOp => exact encode_of_decodeUop h

/-- Settles O5: eight closed words, decoded by evaluation. -/
theorem writtenWordsDecode : Obligations.WrittenWordsDecode := by
  unfold Obligations.WrittenWordsDecode
  decide

/-! ## Response words -/

/-- `RSP[33:32]` (R65). -/
theorem extractLsb'_status (st : BitVec 2) (v : Word) : (st ++ v).extractLsb' 32 2 = st := by
  rw [BitVec.extractLsb'_append_eq_of_le le_rfl, Nat.sub_self, BitVec.extractLsb'_eq_self]

/-- `RSP[31:0]` (R65). -/
theorem extractLsb'_result (st : BitVec 2) (v : Word) : (st ++ v).extractLsb' 0 32 = v := by
  rw [BitVec.extractLsb'_append_eq_of_add_le le_rfl, BitVec.extractLsb'_eq_self]

theorem decodeResponse_append (st : BitVec 2) (v : Word) :
    decodeResponse (st ++ v) =
      if st = 0b00#2 then some (.ok v)
      else if st = 0b01#2 then some .invalidArgument
      else if st = 0b10#2 then some .invalidCommand
      else none := by
  simp only [decodeResponse, extractLsb'_status, extractLsb'_result]

/-- Settles O6: the word of each response is its status before 32 bits, read back field by field. -/
theorem responseWordsReadBack : Obligations.ResponseWordsReadBack := by
  refine ⟨fun r openBits => ?_, fun v _ => extractLsb'_result 0b00#2 v⟩
  cases r with
  | ok v => exact ⟨decodeResponse_append 0b00#2 v, extractLsb'_status 0b00#2 v, (by decide : 0b00#2 ≠ 0b11#2)⟩
  | invalidArgument =>
    exact ⟨decodeResponse_append 0b01#2 openBits, extractLsb'_status 0b01#2 openBits, by decide⟩
  | invalidCommand =>
    exact ⟨decodeResponse_append 0b10#2 openBits, extractLsb'_status 0b10#2 openBits, by decide⟩

end Sys2Proof.Machine

/-! PROOFS. A step runs the command presented or the micro-operation its program has reached, and what it
answers to a request (30_encoding.md R64 to R70, 43_dot.md R122). -/

namespace Sys2Proof.Machine

/-! ## The command presented to an idle block -/

theorem wholeCommand_of_instr {s : State} {w : OpWord} {ws : List OpWord} {i : Instr} (p : Params)
    (hs : s.busy = false) (hr : s.requests = w :: ws) (hd : decodeRequest w = .instr i) :
    wholeCommand p s = .run i (s.withRequests ws) := by
  simp [wholeCommand, hs, hr, hd]

/-- Settles O7: the undisturbed block takes a whole command, and that is the first request waiting. -/
theorem stepRunsThePresentedCommand : Obligations.StepRunsThePresentedCommand := by
  intro s w ws i hs hm hr hd
  rw [step_eq_finish, fetchAt_whole _ hm,
    wholeCommand_of_instr (s := s.withMoves s.moves.tail) _ hs hr hd]
  rfl

theorem requestErrs_of_reserved (s : State) {op : BitVec 2} (a b : Word) (h : op = 0b00#2 ∨ op = 0b11#2) :
    s.RequestErrs (OpWord.pack op a b) .invalidCommand := by
  refine .inl ⟨⟨op, ?_⟩, rfl⟩
  obtain rfl | rfl := h <;> exact decodeRequest_pack _ a b

/-- Settles O38: a reserved code errs, and by a turn or as a whole command an erring request is answered
at once. -/
theorem reservedRequestsAnswerInvalidCommand : Obligations.ReservedRequestsAnswerInvalidCommand := by
  intro s a b op ws hs hm hop hr
  have herr : s.popMove.RequestErrs (OpWord.pack op a b) .invalidCommand := requestErrs_of_reserved _ a b hop
  refine ⟨?_, rfl⟩
  obtain hstep | hstep := step_of_blockMoves hm
  · exact hstep.trans (turn_of_errs _ hs hr herr)
  · exact hstep.trans (wholeCommand_of_errs _ hs hr herr)

/-! ## A whole command answers -/

/-- An idle block whose ports answer completes a command in the step that takes it: it records the reads and
delivers one response (R65, R123). -/
theorem exec_responds {s : State} {w : OpWord} {i : Instr} (hs : s.busy = false) (hpa : s.pa.answers = true)
    (hpb : s.pb.answers = true) (hd : decodeRequest w = .instr i) :
    ∃ order r, exec i s = .next ((s.withReads order).responded r) := by
  obtain ⟨a, b, rfl⟩ | ⟨n, x, rfl⟩ := decodeRequest_instr hd
  · exact ⟨[], _, (mulAt_of_idle Config.params a b hs).trans (by rw [State.withReads_nil])⟩
  · cases hn : s.dotInvalid n with
    | true => exact ⟨[], _, (dotAt_of_invalid Config.params x hs hn).trans (by rw [State.withReads_nil])⟩
    | false =>
      have hready := readyForDot_of_check hs hn (Bool.and_eq_true_iff.2 ⟨hpa, hpb⟩)
      exact ⟨_, _, dotAt_of_ready params_accOverflow x hready⟩

theorem State.responded_holdsNothing (s : State) (r : Response) : (s.responded r).HoldsNothing :=
  s.idle_holdsNothing

/-- A step of the undisturbed idle block takes the first request and answers it, whatever its code is. -/
theorem step_responds {s : State} {w : OpWord} {ws : List OpWord} (hs : s.busy = false)
    (hm : s.moves = [] ∨ ∃ ms, s.moves = .whole :: ms) (hr : s.requests = w :: ws)
    (hpa : s.pa.answers = true) (hpb : s.pb.answers = true) :
    ∃ order r, step s = .next (((s.popMove.withRequests ws).withReads order).responded r) := by
  cases hd : decodeRequest w with
  | instr i =>
    rw [stepRunsThePresentedCommand s w ws i hs hm hr hd]
    exact exec_responds (s := s.popMove.withRequests ws) hs hpa hpb hd
  | reservedRequest op =>
    refine ⟨[], .invalidCommand, ?_⟩
    rw [step_eq_finish, fetchAt_whole _ hm, State.withReads_nil]
    exact wholeCommand_of_errs (s := s.popMove) _ hs hr (.inl ⟨⟨op, hd⟩, rfl⟩)
  | microOpNeverIssued => exact absurd hd (decodeRequest_ne_never w)

/-- Settles O40: the answer of that step is one response more, and the block idle. -/
theorem oneResponsePerRequest : Obligations.OneResponsePerRequest := by
  intro s w ws hs hm hr hpa hpb
  obtain ⟨order, r, hstep⟩ := step_responds hs hm hr hpa hpb
  exact ⟨_, r, hstep, rfl, rfl, rfl, State.responded_holdsNothing _ r⟩

/-- Settles O32: with its check failed or passed, a `DOT` answers what its count and the sequences give. -/
theorem dotIgnoresItsBField : Obligations.DotIgnoresItsBField := by
  intro s n x x' hs hpa hpb
  cases hn : s.dotInvalid n with
  | true => exact (dotAt_of_invalid Config.params x hs hn).trans (dotAt_of_invalid Config.params x' hs hn).symm
  | false =>
    have hready := readyForDot_of_check hs hn (Bool.and_eq_true_iff.2 ⟨hpa, hpb⟩)
    exact (dotAt_of_ready params_accOverflow x hready).trans (dotAt_of_ready params_accOverflow x' hready).symm

/-- Settles O28: one product, narrowed by 15 and by 19 bits. -/
theorem buildsReadTheSameWordDifferently : Obligations.BuildsReadTheSameWordDifferently := by
  intro p q s hp hq hs
  have h15 : mulResult .f15 0x00800000#32 0x00800000#32 = 0x80000000#32 := by decide
  have h19 : mulResult .f19 0x00800000#32 0x00800000#32 = 0x08000000#32 := by decide
  rw [mulAt_of_idle p _ _ hs, mulAt_of_idle q _ _ hs, hp, hq, h15, h19]
  exact ⟨rfl, rfl⟩

/-! ## The micro-operation a running command has reached -/

theorem step_of_busy {s : State} (hs : s.busy = true) (hm : s.BlockMoves) :
    step s = finish (commandTurn Config.params s.popMove) := by
  rw [step_eq_finish, fetchAt_block _ hs hm]; rfl

theorem commandTurn_of_mul {s : State} (p : Params) (hr : s.res = none) (ho : s.opl = some 0b01#2) :
    commandTurn p s = mulTurn s := by
  rw [commandTurn, hr, ho]; rfl

theorem commandTurn_of_dot {s : State} (p : Params) (hr : s.res = none) (ho : s.opl = some 0b10#2) :
    commandTurn p s = dotTurn p s := by
  rw [commandTurn, hr, ho]; rfl

theorem mulTurn_wmul {s : State} {a b : Word} (hacc : s.acc = none) (hla : s.la = some a)
    (hlb : s.lb = some b) : mulTurn s = .run (.wmul a b) s := by
  rw [mulTurn, hacc, hla, hlb]; exact issue_wmul a b s

theorem mulTurn_narrow {s : State} {acc : Wide} (hacc : s.acc = some acc) :
    mulTurn s = .run .asmNarrow s := by
  rw [mulTurn, hacc]; exact issue_narrow s

/-- Once both elements of a pair are there, the turn consumes them. -/
theorem pairTurn_of_both {s : State} {x y : Word} (p : Params) (i : Word) (k : Word → Word → Fetched)
    (hx : s.x = some x) (hy : s.y = some y) : pairTurn p i s k = k x y := by
  rw [pairTurn, hx, hy]

theorem dotTurn_wmul {s : State} {n x y : Word} (p : Params) (hacc : s.acc = none) (hc : s.cnt = some n)
    (hx : s.x = some x) (hy : s.y = some y) :
    dotTurn p s = .run (.wmul x y) (s.consumedPair (n - 1#32)) := by
  rw [dotTurn, hacc, hc, readSeq_some, pairTurn_of_both p _ _ hx hy, issue_wmul]

theorem dotTurn_wmac {s : State} {acc : Wide} {i x y : Word} (p : Params) (hacc : s.acc = some acc)
    (hi : s.idx = some i) (hi0 : i ≠ 0#32) (hx : s.x = some x) (hy : s.y = some y) :
    dotTurn p s = .run (.wmac x y) (s.consumedPair (i - 1#32)) := by
  rw [dotTurn, hacc, hi, readSeq_some, if_neg hi0, pairTurn_of_both p _ _ hx hy, issue_wmac]

theorem dotTurn_narrow {s : State} {acc : Wide} (p : Params) (hacc : s.acc = some acc)
    (hi : s.idx = some 0#32) : dotTurn p s = .run .asmNarrow s := by
  rw [dotTurn, hacc, hi, readSeq_some, if_pos rfl, issue_narrow]

/-- Settles O8: each clause is the turn of its place in the program of R111 or R122. -/
theorem stepRunsTheIssuedMicroOp : Obligations.StepRunsTheIssuedMicroOp := by
  intro s hs hr hm
  have hmul (ho : s.opl = some 0b01#2) {f : Fetched} (h : mulTurn s.popMove = f) : step s = finish f := by
    rw [step_of_busy hs hm, commandTurn_of_mul (s := s.popMove) _ hr ho, h]
  have hdot (ho : s.opl = some 0b10#2) {f : Fetched} (h : dotTurn Config.params s.popMove = f) :
      step s = finish f := by
    rw [step_of_busy hs hm, commandTurn_of_dot (s := s.popMove) _ hr ho, h]
  exact ⟨fun a b ho hacc hla hlb => hmul ho (mulTurn_wmul hacc hla hlb),
    fun acc ho hacc => hmul ho (mulTurn_narrow hacc),
    fun n x y ho hacc hc hx hy => hdot ho (dotTurn_wmul _ hacc hc hx hy),
    fun acc i x y ho hacc hi hi0 hx hy => hdot ho (dotTurn_wmac _ hacc hi hi0 hx hy),
    fun acc ho hacc hi => hdot ho (dotTurn_narrow _ hacc hi)⟩

end Sys2Proof.Machine

/-! PROOFS. The two commands are their micro-programs (30_encoding.md R72, 43_dot.md R129). -/

namespace Sys2Proof.Machine

/-! ## Programs -/

theorem execAll_cons (i : Instr) (is : List Instr) (s : State) :
    execAll (i :: is) s = andThen (exec i s) (execAll is) := rfl

theorem execAll_append (is js : List Instr) (s : State) :
    execAll (is ++ js) s = andThen (execAll is s) (execAll js) := by
  induction is generalizing s with
  | nil => rfl
  | cons i is ih =>
    rw [List.cons_append, execAll_cons, execAll_cons]
    cases exec i s with
    | next t => exact ih t
    | fault r => rfl
    | refused r => rfl

/-- The end of both programs: `RES` takes the narrowed accumulator (R100). -/
theorem execAll_narrow {s : State} {acc : Wide} (h : s.acc = some acc) :
    execAll [.asmNarrow] s = .next (s.withRes (narrowed Config.build acc)) := by
  have hexec : exec .asmNarrow s = _ := narrowAt_eq Config.params h
  rw [execAll_cons, hexec]; rfl

/-- The `WMAC` of the pairs `k` down to 1, as the program of a `DOT` lists them (R72). -/
def wmacProgram (a b : Port) (k : Nat) : List Instr :=
  ((List.range k).map fun j => Instr.wmac (elemAt a.elems (j + 1)) (elemAt b.elems (j + 1))).reverse

theorem wmacProgram_succ (a b : Port) (k : Nat) :
    wmacProgram a b (k + 1) =
      .wmac (elemAt a.elems (k + 1)) (elemAt b.elems (k + 1)) :: wmacProgram a b k := by
  simp [wmacProgram, List.range_succ]

theorem wmacProgram_length (a b : Port) (k : Nat) : (wmacProgram a b k).length = k := by simp [wmacProgram]

theorem dotProgram_eq (a b : Port) (n : Nat) :
    dotProgram a b n =
      .wmul (elemAt a.elems 0) (elemAt b.elems 0) :: (wmacProgram a b (n - 1) ++ [.asmNarrow]) := rfl

/-- They add their products to the accumulator and touch nothing else (R120). -/
theorem execAll_wmacProgram (a b : Port) (k : Nat) {s : State} {z : Int}
    (h : s.acc = some (BitVec.ofInt 64 z)) :
    execAll (wmacProgram a b k) s =
      .next (s.withAcc (BitVec.ofInt 64 (z + (Finset.Ico 1 (k + 1)).sum fun j => a.elemInt j * b.elemInt j))) := by
  induction k generalizing s z with
  | zero =>
    have hacc : s.withAcc (BitVec.ofInt 64 z) = s := by rw [State.withAcc, ← h]
    rw [Finset.Ico_self, Finset.sum_empty, add_zero, hacc]; rfl
  | succ k ih =>
    have hexec : exec (.wmac (elemAt a.elems (k + 1)) (elemAt b.elems (k + 1))) s = _ :=
      wmacAt_wrap params_accOverflow _ _ h
    rw [wmacProgram_succ, execAll_cons, hexec, andThen_next, ofInt_add_wideProduct, ih rfl,
      Finset.sum_Ico_succ_top (by omega : 1 ≤ k + 1), add_assoc,
      add_comm (Finset.sum _ _) (a.elemInt (k + 1) * b.elemInt (k + 1))]
    rfl

/-! ## The program of each command -/

theorem execAll_mulProgram (a b : Word) (s : State) :
    execAll (mulProgram a b) s =
      .next ((s.withAcc (wideProduct a b)).withRes (mulResult Config.build a b)) := by
  have hexec : exec (.wmul a b) s = _ := execWmul_eq a b s
  rw [mulProgram, execAll_cons, hexec, andThen_next, execAll_narrow (State.withAcc_acc _ _), narrowed_wideProduct]

/-- Run from any state `t`, the program of a `DOT` over the sequences of `s` leaves its result in `RES`. -/
theorem execAll_dotProgram (s t : State) {n : Word} (hn : 0 < n.toNat) :
    execAll (dotProgram s.pa s.pb n.toNat) t =
      .next ((t.withAcc (BitVec.ofInt 64 (dotSum s.pa s.pb n.toNat))).withRes (dotResult Config.build s n)) := by
  have hexec : exec (.wmul (elemAt s.pa.elems 0) (elemAt s.pb.elems 0)) t = _ := execWmul_eq _ _ t
  rw [dotProgram_eq, execAll_cons, hexec, andThen_next, execAll_append,
    execAll_wmacProgram _ _ _ (by rw [State.withAcc_acc, wideProduct_eq_ofInt]), andThen_next,
    execAll_narrow (State.withAcc_acc _ _), Nat.sub_add_cancel hn, ← narrowed_dotSum, dotSum_eq_first_add _ _ hn]
  rfl

/-! ## The operations of the program of a DOT, counted -/

theorem op_encode (i : Instr) : OpWord.op (encode i) = i.opcode := by
  cases i <;> exact op_pack _ _ _

/-- The code stands in the two highest bits of a word (R61, R66). -/
theorem ushiftRight_eq_op (w : OpWord) : w >>> 64 = (OpWord.op w).setWidth 66 := by
  apply BitVec.eq_of_toNat_eq
  have hw := w.isLt
  rw [OpWord.op, BitVec.toNat_ushiftRight, BitVec.toNat_setWidth, BitVec.extractLsb'_toNat,
    Nat.shiftRight_eq_div_pow]
  omega

theorem encode_ushiftRight_eq_iff (i : Instr) : encode i >>> 64 = 2#66 ↔ i.opcode = 0b10#2 := by
  rw [ushiftRight_eq_op, op_encode]
  cases i <;> simp [Instr.opcode]

theorem dotProgram_length (a b : Port) {n : Nat} (hn : 0 < n) : (dotProgram a b n).length = n + 1 := by
  rw [dotProgram_eq, List.length_cons, List.length_append, wmacProgram_length, List.length_singleton,
    Nat.sub_add_cancel hn]

/-- Every operation of the loop has the code of `WMAC`, and neither the first nor the last has (R129). -/
theorem filter_wmac_dotProgram (a b : Port) (n : Nat) :
    ((dotProgram a b n).filter fun i => encode i >>> 64 = 2#66) = wmacProgram a b (n - 1) := by
  have hwmac : ∀ i ∈ wmacProgram a b (n - 1), i.opcode = 0b10#2 := by
    simp only [wmacProgram, List.mem_reverse, List.mem_map]
    rintro _ ⟨j, -, rfl⟩
    rfl
  simp only [encode_ushiftRight_eq_iff, dotProgram_eq]
  rw [List.filter_cons_of_neg (by simp [Instr.opcode]), List.filter_append,
    List.filter_eq_self.2 fun i hi => decide_eq_true (hwmac i hi)]
  exact List.append_nil _

/-- Settles O21: both the program and the command answer with the narrowed sum of the products. -/
theorem commandsAreTheirMicroPrograms : Obligations.CommandsAreTheirMicroPrograms := by
  refine ⟨fun s a b hs => ?_, fun s n x h => ?_⟩
  · exact ⟨_, _, execAll_mulProgram a b _, rfl, mulAt_of_idle Config.params a b hs⟩
  · have ⟨_, hn0, _⟩ := h
    have hn : 0 < n.toNat := BitVec.lt_def.1 ((BitVec.pos_iff_ne_zero n).2 hn0)
    refine ⟨⟨_, _, execAll_dotProgram s _ hn, rfl, dotAt_of_ready params_accOverflow x h⟩,
      dotProgram_length _ _ hn, ?_⟩
    rw [filter_wmac_dotProgram, wmacProgram_length]

end Sys2Proof.Machine

/-! PROOFS. The integer and rational arithmetic of narrowing: what `wrap_32` keeps, what `floor(z / 2^F)` is, and
the numbers patterns stand for (40_fixed_point.md R80 to R88). -/

namespace Sys2Proof.Machine

/-! ## Wrapping -/

theorem toInt_ofInt_wrapTo (n : Nat) (z : Int) : (BitVec.ofInt n (wrapTo n z)).toInt = wrapTo n z := by
  rw [ofInt_wrapTo, wrapTo_eq_toInt]

/-- Wrapping keeps exactly the numbers of the range (R9). -/
theorem wrapTo_eq_self_iff (n : Nat) (z : Int) : wrapTo (n + 1) z = z ↔ -(2 : Int) ^ n ≤ z ∧ z < 2 ^ n := by
  refine ⟨fun h => ?_, fun ⟨hlo, hhi⟩ => ?_⟩
  · rw [← h, wrapTo_eq_toInt]
    exact ⟨BitVec.le_toInt _, BitVec.toInt_lt⟩
  · have hpow : ((2 ^ (n + 1) : Nat) : Int) = 2 * 2 ^ n := by push_cast; ring
    exact Int.bmod_eq_of_le (by omega) (by omega)

/-! ## Floor division by `2^F` -/

theorem floorShift_eq_floor (b : Build) (z : Int) : floorShift b z = ⌊(z : ℚ) / 2 ^ b.fracBits⌋ := by
  have h := Rat.floor_intCast_div_natCast z (2 ^ b.fracBits)
  push_cast at h
  rw [floorShift, Int.fdiv_eq_ediv_of_nonneg _ (by positivity), h]

theorem le_floorShift_iff (b : Build) (k z : Int) : k ≤ floorShift b z ↔ k * 2 ^ b.fracBits ≤ z := by
  rw [floorShift_eq_floor, Int.le_floor, le_div_iff₀ (by positivity)]
  exact_mod_cast Iff.rfl

theorem floorShift_mul_pow (b : Build) (k : Int) : floorShift b (k * 2 ^ b.fracBits) = k :=
  Int.mul_fdiv_cancel _ (by positivity)

/-- The floor lies in the 32-bit range exactly when the dividend lies in the range `2^F` times as wide (R88). -/
theorem floorShift_inRange_iff (b : Build) (z : Int) :
    (-(2 : Int) ^ 31 ≤ floorShift b z ∧ floorShift b z < 2 ^ 31) ↔
      -(2 : Int) ^ (31 + b.fracBits) ≤ z ∧ z < 2 ^ (31 + b.fracBits) := by
  rw [le_floorShift_iff, ← not_le, le_floorShift_iff, not_le, pow_add, neg_mul]

/-- Narrowing is free of wraparound exactly in that range (R88). -/
theorem wrapTo_floorShift_eq_iff (b : Build) (z : Int) :
    wrapTo 32 (floorShift b z) = floorShift b z ↔
      -(2 : Int) ^ (31 + b.fracBits) ≤ z ∧ z < 2 ^ (31 + b.fracBits) :=
  (wrapTo_eq_self_iff 31 _).trans (floorShift_inRange_iff b z)

/-! ## The numbers patterns stand for -/

theorem resolution_pos (b : Build) : 0 < resolution b := by unfold resolution; positivity

theorem value_eq_mul_resolution (b : Build) (v : Word) : value b v = v.toInt * resolution b := by
  rw [value, resolution, mul_one_div]

/-- The product of two numbers is the product of their patterns over `2^(2F)` (R84). -/
theorem value_mul_value (b : Build) (u v : Word) :
    value b u * value b v = ((u.toInt * v.toInt : Int) : ℚ) / 2 ^ (2 * b.fracBits) := by
  rw [value, value, div_mul_div_comm, ← pow_add, ← two_mul, Int.cast_mul]

/-- The same with one factor `2^-F` set apart: in units of the resolution it is `u * v / 2^F`. -/
theorem value_mul_value_eq_mul_resolution (b : Build) (u v : Word) :
    value b u * value b v = ((u.toInt * v.toInt : Int) : ℚ) / 2 ^ b.fracBits * resolution b := by
  rw [value_mul_value, resolution, div_mul_div_comm, mul_one, ← pow_add, ← two_mul]

/-- Each half of the range of the format is `2^31` steps of the resolution (R81). -/
theorem pow_eq_mul_resolution (b : Build) : (2 : ℚ) ^ (31 - b.fracBits) = 2 ^ 31 * resolution b := by
  cases b <;> norm_num [resolution, Build.fracBits]

/-- A multiple of the resolution lies in the range of the format exactly when it counts a 32-bit number of
steps (R81). -/
theorem mul_resolution_inRange_iff (b : Build) (k : Int) :
    (-(2 : ℚ) ^ (31 - b.fracBits) ≤ k * resolution b ∧
        (k : ℚ) * resolution b ≤ 2 ^ (31 - b.fracBits) - resolution b) ↔
      -(2 : Int) ^ 31 ≤ k ∧ k ≤ 2 ^ 31 - 1 := by
  have hr := resolution_pos b
  have hhi : (2 : ℚ) ^ 31 * resolution b - resolution b = (2 ^ 31 - 1) * resolution b := by ring
  rw [pow_eq_mul_resolution, hhi, ← neg_mul, mul_le_mul_iff_left₀ hr, mul_le_mul_iff_left₀ hr]
  exact_mod_cast Iff.rfl

/-- Settles O50: the patterns count the steps of the resolution, and their range is the 32-bit range. -/
theorem valuesSpanTheFormat : Obligations.ValuesSpanTheFormat := by
  intro b
  refine ⟨fun v => ?_, fun k hlo hhi => ?_⟩
  · have hv : -(2 : Int) ^ 31 ≤ v.toInt ∧ v.toInt ≤ 2 ^ 31 - 1 :=
      ⟨BitVec.le_toInt v, Int.le_sub_one_of_lt BitVec.toInt_lt⟩
    rw [value_eq_mul_resolution]
    obtain ⟨hlo, hhi⟩ := (mul_resolution_inRange_iff b v.toInt).2 hv
    exact ⟨hlo, hhi, v.toInt, rfl⟩
  · obtain ⟨hlo, hhi⟩ := (mul_resolution_inRange_iff b k).1 ⟨hlo, hhi⟩
    have hk : wrapTo 32 k = k := (wrapTo_eq_self_iff 31 k).2 ⟨hlo, Int.lt_of_le_sub_one hhi⟩
    exact ⟨BitVec.ofInt 32 k, by rw [value_eq_mul_resolution, ← wrapTo_eq_toInt, hk]⟩

end Sys2Proof.Machine

/-! PROOFS. The datapath in numbers: `NARROW`, `WMUL` and `WMAC` (40_fixed_point.md R84 to R86, 43_dot.md R120). -/

namespace Sys2Proof.Machine

/-- The converter takes the bits `ACC[F+31:F]` (R86, R100). -/
theorem narrowed_eq_extractLsb' (b : Build) (acc : Wide) : narrowed b acc = acc.extractLsb' b.fracBits 32 := by
  have hF := fracBits_le b
  ext i hi
  simp [narrowed, BitVec.getLsbD_sshiftRight, show ¬ 64 ≤ i by omega, show b.fracBits + i < 64 by omega]

/-- Settles O10: the bits are the converter's, and the converter is floor and wrap. -/
theorem narrowIsFloorThenWrap : Obligations.NarrowIsFloorThenWrap := by
  intro s acc ua ub hacc
  have hexec : exec (.narrow ua ub) s = _ := narrowAt_eq Config.params hacc
  rw [← narrowed_eq_extractLsb']
  exact ⟨hexec, by rw [narrowed_eq_ofInt, wrapTo_eq_toInt]⟩

/-- The range of a product of two 32-bit numbers (R84). -/
theorem product_bounds (a b : Word) :
    -((2 : Int) ^ 62 - 2 ^ 31) ≤ a.toInt * b.toInt ∧ a.toInt * b.toInt ≤ 2 ^ 62 := by
  have ha := BitVec.le_toInt a
  have ha' := BitVec.toInt_lt (x := a)
  have hb := BitVec.le_toInt b
  have hb' := BitVec.toInt_lt (x := b)
  have hmax := natAbs_product_le a b
  refine ⟨?_, by omega⟩
  norm_num at ha ha' hb hb' ⊢
  nlinarith

/-- Settles O15: the product of the patterns is the product of the numbers over `2^(2F)`; the two ends of the
range are products of closed words. -/
theorem productsAreExactAndFit : Obligations.ProductsAreExactAndFit := by
  refine ⟨fun s a b => ⟨wideProduct a b, execWmul_eq a b s, ?_⟩, fun s => ⟨?_, ?_⟩⟩
  · obtain ⟨hlo, hhi⟩ := product_bounds a b
    rw [toInt_wideProduct]
    exact ⟨rfl, hlo, hhi, value_mul_value _ a b⟩
  · have hmax : wideProduct 0x80000000#32 0x80000000#32 = 0x4000000000000000#64 := by decide
    exact hmax ▸ execWmul_eq _ _ s
  · have hmin : wideProduct 0x80000000#32 0x7FFFFFFF#32 = 0xC000000080000000#64 := by decide
    exact hmin ▸ execWmul_eq _ _ s

theorem wideProduct_comm (a b : Word) : wideProduct a b = wideProduct b a := BitVec.mul_comm _ _

theorem wideProduct_eq_zero {a b : Word} (h : a = 0#32 ∨ b = 0#32) : wideProduct a b = 0#64 := by
  rcases h with rfl | rfl
  · exact BitVec.zero_mul
  · exact BitVec.mul_zero

/-- `WMAC` by the wrapping adder (R120). -/
theorem exec_wmac_of_acc {s : State} {acc : Wide} (ua ub : Word) (h : s.acc = some acc) :
    exec (.wmac ua ub) s = .next (s.withAcc (acc + wideProduct ua ub)) :=
  wmacAt_wrap params_accOverflow ua ub h

/-- The 64-bit sum is the wrapped sum of the integers (R120). -/
theorem toInt_add_wideProduct (acc : Wide) (ua ub : Word) :
    (acc + wideProduct ua ub).toInt = wrapTo 64 (acc.toInt + ua.toInt * ub.toInt) := by
  rw [BitVec.toInt_add, toInt_wideProduct, wrapTo]

/-- Inside the 64-bit range it is the sum itself. -/
theorem toInt_add_wideProduct_of_inRange {acc : Wide} {ua ub : Word}
    (hlo : -(2 : Int) ^ 63 ≤ acc.toInt + ua.toInt * ub.toInt)
    (hhi : acc.toInt + ua.toInt * ub.toInt ≤ 2 ^ 63 - 1) :
    (acc + wideProduct ua ub).toInt = acc.toInt + ua.toInt * ub.toInt :=
  (toInt_add_wideProduct acc ua ub).trans ((wrapTo_eq_self_iff 63 _).2 ⟨hlo, Int.lt_of_le_sub_one hhi⟩)

/-- Settles O16: `WMAC` is the 64-bit sum of `ACC` and the exact product. -/
theorem wmacAddsTheExactProduct : Obligations.WmacAddsTheExactProduct := by
  intro s acc ua ub hacc
  refine ⟨wideProduct ua ub, acc + wideProduct ua ub, execWmul_eq ua ub s, exec_wmac_of_acc ua ub hacc,
    toInt_add_wideProduct acc ua ub, toInt_add_wideProduct_of_inRange, rfl, ?_, fun h => ?_⟩
  · rw [exec_wmac_of_acc ub ua hacc, wideProduct_comm]; rfl
  · rw [wideProduct_eq_zero h, BitVec.add_zero]

end Sys2Proof.Machine

/-! PROOFS. `MUL` in numbers: its one-sided error, where it wraps, and its values (40_fixed_point.md R87 to R92). -/

namespace Sys2Proof.Machine

/-! ## The result as an integer -/

/-- `MUL` on an idle block (R111). -/
theorem exec_mul_of_idle {s : State} (a b : Word) (hs : s.busy = false) :
    exec (.mul a b) s = .next (s.responded (.ok (mulResult Config.build a b))) :=
  mulAt_of_idle Config.params a b hs

theorem toInt_mulResult (b : Build) (u v : Word) :
    (mulResult b u v).toInt = wrapTo 32 (floorShift b (u.toInt * v.toInt)) := toInt_ofInt_wrapTo 32 _

theorem toInt_mulResult_of_inRange {b : Build} {u v : Word}
    (h : -(2 : Int) ^ (31 + b.fracBits) ≤ u.toInt * v.toInt ∧ u.toInt * v.toInt < 2 ^ (31 + b.fracBits)) :
    (mulResult b u v).toInt = floorShift b (u.toInt * v.toInt) :=
  (toInt_mulResult b u v).trans ((wrapTo_floorShift_eq_iff b _).2 h)

/-- Settles O23: the result is the wrapped floor, and the three conditions are one range. -/
theorem mulWrapsOnlyOutOfRange : Obligations.MulWrapsOnlyOutOfRange := by
  intro s a b hs
  refine ⟨_, exec_mul_of_idle a b hs, ?_⟩
  rw [toInt_mulResult, mul_resolution_inRange_iff, Int.le_sub_one_iff, floorShift_inRange_iff]
  have h := wrapTo_floorShift_eq_iff Config.build (a.toInt * b.toInt)
  exact ⟨h, h, h⟩

/-- Settles O22: in units of the resolution the product is `a * b / 2^F` and the result its floor. -/
theorem mulErrorIsOneSided : Obligations.MulErrorIsOneSided := by
  intro s a b hs
  refine ⟨_, exec_mul_of_idle a b hs, toInt_mulResult _ a b, fun hlo hhi => ?_⟩
  have hres := resolution_pos Config.build
  rw [value_mul_value_eq_mul_resolution, value_eq_mul_resolution, toInt_mulResult_of_inRange ⟨hlo, hhi⟩,
    floorShift_eq_floor]
  generalize ((a.toInt * b.toInt : Int) : ℚ) / 2 ^ Config.build.fracBits = q
  refine ⟨?_, ?_, fun k hk => ?_⟩
  · rw [← sub_mul]
    exact mul_nonneg (Int.fract_nonneg q) hres.le
  · rw [← sub_mul]
    exact mul_lt_of_lt_one_left hres (Int.fract_lt_one q)
  · rw [mul_le_mul_iff_left₀ hres] at hk ⊢
    exact Int.cast_le.2 (Int.le_floor.2 hk)

/-! ## Commutativity, and the constants -/

theorem mulResult_comm (b : Build) (u v : Word) : mulResult b u v = mulResult b v u := by
  rw [mulResult, mulResult, mul_comm]

/-- An operand that stands for the integer `k` multiplies by it, modulo `2^32`. -/
theorem mulResult_of_toInt_eq {b : Build} {v : Word} {k : Int} (u : Word) (hv : v.toInt = k * 2 ^ b.fracBits) :
    mulResult b u v = BitVec.ofInt 32 (wrapTo 32 (u.toInt * k)) := by
  rw [mulResult, hv, ← mul_assoc, floorShift_mul_pow]

theorem mulResult_zero (b : Build) (u : Word) : mulResult b u 0#32 = 0#32 := by
  rw [mulResult_of_toInt_eq (k := 0) u (by simp), mul_zero]; rfl

theorem toInt_kOne (b : Build) : (kOne b).toInt = 1 * 2 ^ b.fracBits := by cases b <;> decide

theorem toInt_kTwo (b : Build) : (kTwo b).toInt = 2 * 2 ^ b.fracBits := by cases b <;> decide

theorem toInt_neg_kOne (b : Build) : (-kOne b).toInt = -1 * 2 ^ b.fracBits := by cases b <;> decide

/-- `ONE` is neutral, for every 32-bit operand (R90). -/
theorem mulResult_kOne (b : Build) (u : Word) : mulResult b u (kOne b) = u := by
  rw [mulResult_of_toInt_eq u (toInt_kOne b), mul_one, ofInt_wrapTo, BitVec.ofInt_toInt]

theorem mulResult_kTwo (b : Build) (u : Word) :
    mulResult b u (kTwo b) = BitVec.ofInt 32 (wrapTo 32 (2 * u.toInt)) := by
  rw [mulResult_of_toInt_eq u (toInt_kTwo b), mul_comm]

theorem mulResult_neg_kOne (b : Build) (u : Word) :
    mulResult b u (-kOne b) = BitVec.ofInt 32 (wrapTo 32 (-u.toInt)) := by
  rw [mulResult_of_toInt_eq u (toInt_neg_kOne b), mul_neg_one]

/-- Settles O25: each constant stands for an integer. -/
theorem mulByTheConstants : Obligations.MulByTheConstants := by
  intro s a hs
  simp only [exec_mul_of_idle _ _ hs, mulResult_comm _ (kOne _), mulResult_kOne, mulResult_kTwo,
    mulResult_neg_kOne, kZero, mulResult_zero, true_and]
  rintro rfl
  have hmin : BitVec.ofInt 32 (wrapTo 32 (-(0x80000000#32).toInt)) = 0x80000000#32 := by decide
  rw [hmin]

/-! ## Written values -/

/-- The nonzero rows of the sign table (R89), for either build. -/
theorem mulResult_signTable (b : Build) :
    mulResult b 3#32 (1#32 <<< (b.fracBits - 1)) = 1#32 ∧
    mulResult b (-3#32) (1#32 <<< (b.fracBits - 1)) = -2#32 ∧
    mulResult b 3#32 (-(1#32 <<< (b.fracBits - 1))) = -2#32 ∧
    mulResult b (-3#32) (-(1#32 <<< (b.fracBits - 1))) = 1#32 ∧
    mulResult b 1#32 1#32 = 0#32 ∧ mulResult b (-1#32) 1#32 = -1#32 ∧
    mulResult b (-1#32) (-1#32) = 0#32 := by cases b <;> decide

/-- Settles O24: the table by evaluation in either build, the zero rows for every operand. -/
theorem mulFollowsTheSignTable : Obligations.MulFollowsTheSignTable := by
  intro s hs
  obtain ⟨h1, h2, h3, h4, h5, h6, h7⟩ := mulResult_signTable Config.build
  simp only [exec_mul_of_idle _ _ hs, h1, h2, h3, h4, h5, h6, h7, mulResult_comm _ 0#32, mulResult_zero,
    implies_true, and_self]

/-- Settles O26: `ONE` is neutral, and the two closed products are evaluated. -/
theorem literalScaling : Obligations.LiteralScaling := by
  intro s hs
  have htwo : ∀ b : Build, mulResult b (kTwo b) (kTwo b) = 4#32 <<< b.fracBits := fun b => by cases b <;> decide
  refine ⟨?_, ?_, fun p hp => ?_⟩
  · rw [exec_mul_of_idle _ _ hs, mulResult_comm, mulResult_kOne]
  · rw [exec_mul_of_idle _ _ hs, htwo]
  · have h15 : mulResult .f15 0x00008000#32 0x00010000#32 = 0x00010000#32 := by decide
    rw [mulAt_of_idle p _ _ hs, hp, h15]

/-- Settles O27: the product of integers commutes; the example's four products are closed. -/
theorem mulCommutesAndDoesNotAssociate : Obligations.MulCommutesAndDoesNotAssociate := by
  refine ⟨fun s a b hs => ⟨_, exec_mul_of_idle a b hs, ?_⟩, fun p s hp hs => ?_⟩
  · rw [exec_mul_of_idle b a hs, mulResult_comm]
  · have h1 : mulResult .f15 1#32 0x4000#32 = 0#32 := by decide
    have h2 : mulResult .f15 0#32 0x10000#32 = 0#32 := by decide
    have h3 : mulResult .f15 0x4000#32 0x10000#32 = 0x8000#32 := by decide
    have h4 : mulResult .f15 1#32 0x8000#32 = 1#32 := by decide
    simp only [mulAt_of_idle p _ _ hs, hp, h1, h2, h3, h4, and_self]

end Sys2Proof.Machine

/-! PROOFS. `DOT` in numbers: its closed form, one rounding, the order of its terms, and sums that cannot overflow
(40_fixed_point.md R85, R93 to R96, 43_dot.md R123 to R128). -/

namespace Sys2Proof.Machine

/-! ## The closed form -/

/-- `DOT` on an idle block that passes its check, its reads answered (R123). -/
theorem exec_dot_of_ready {s : State} {n : Word} (x : Word) (h : s.ReadyForDot n) :
    exec (.dot n x) s =
      .next ((s.withReads (readOrder n.toNat)).responded (.ok (dotResult Config.build s n))) :=
  dotAt_of_ready params_accOverflow x h

theorem State.ReadyForDot.idle {s : State} {n : Word} (h : s.ReadyForDot n) : s.busy = false := h.1

theorem State.ReadyForDot.count_pos {s : State} {n : Word} (h : s.ReadyForDot n) : 0 < n.toNat := by
  obtain ⟨-, hn, -⟩ := h
  exact BitVec.lt_def.1 ((BitVec.pos_iff_ne_zero n).2 hn)

theorem toInt_dotResult_of_inRange {b : Build} {s : State} {n : Word}
    (h : -(2 : Int) ^ (31 + b.fracBits) ≤ dotSum s.pa s.pb n.toNat ∧
      dotSum s.pa s.pb n.toNat < 2 ^ (31 + b.fracBits)) :
    (dotResult b s n).toInt = floorShift b (dotSum s.pa s.pb n.toNat) :=
  (toInt_ofInt_wrapTo 32 _).trans ((wrapTo_floorShift_eq_iff b _).2 h)

/-- The sum may be wrapped to 64 bits before it is narrowed (R96). -/
theorem dotResult_eq_of_wrapped_sum (b : Build) (s : State) (n : Word) :
    dotResult b s n = BitVec.ofInt 32 (floorShift b (wrapTo 64 (dotSum s.pa s.pb n.toNat))) := by
  rw [← narrowed_dotSum, narrowed_eq_ofInt, wrapTo_eq_toInt]

/-- Settles O30: the sum over the wrapping accumulator narrows as the unbounded sum does. -/
theorem dotDeliversItsClosedForm : Obligations.DotDeliversItsClosedForm :=
  fun s n x h => ⟨exec_dot_of_ready x h, dotResult_eq_of_wrapped_sum _ s n⟩

/-! ## Short sums -/

theorem dotSum_succ (a b : Port) (n : Nat) : dotSum a b (n + 1) = dotSum a b n + a.elemInt n * b.elemInt n :=
  Finset.sum_range_succ _ n

theorem dotSum_zero (a b : Port) : dotSum a b 0 = 0 := Finset.sum_range_zero _

theorem dotSum_one (a b : Port) : dotSum a b 1 = a.elemInt 0 * b.elemInt 0 := by
  rw [dotSum_succ, dotSum_zero, zero_add]

/-- A sum that is one product gives the result of its `MUL`. -/
theorem dotResult_eq_mulResult {b : Build} {s : State} {n u v : Word}
    (h : dotSum s.pa s.pb n.toNat = u.toInt * v.toInt) : dotResult b s n = mulResult b u v := by
  rw [dotResult, h, mulResult]

/-- Settles O34: the sum of one term is its product. -/
theorem dotOfOneIsMul : Obligations.DotOfOneIsMul := by
  intro s x h
  have hone : dotResult Config.build s 1#32 = mulResult Config.build (elemAt s.pa.elems 0) (elemAt s.pb.elems 0) :=
    dotResult_eq_mulResult (dotSum_one s.pa s.pb)
  exact ⟨⟨_, _, _, exec_dot_of_ready x h, rfl, hone ▸ exec_mul_of_idle _ _ h.idle, rfl⟩, rfl⟩

/-- Settles O35: the second product is zero, and the first is `ONE` times `ONE`. -/
theorem dotSelectsATerm : Obligations.DotSelectsATerm := by
  intro s x h ha0 ha1 hb0 hb1
  have hsum : dotSum s.pa s.pb 2 = (kOne Config.build).toInt * (kOne Config.build).toInt := by
    simp [dotSum_succ, dotSum_zero, Port.elemInt, ha0, ha1, hb0, kZero]
  have hone : dotResult Config.build s 2#32 = kOne Config.build :=
    (dotResult_eq_mulResult hsum).trans (mulResult_kOne _ _)
  refine ⟨_, exec_dot_of_ready x h, by rw [hone]; rfl, ?_⟩
  rw [hsum, toInt_kOne, one_mul, ← pow_add, two_mul]

/-! ## One rounding -/

/-- Rounding every term down is at or below rounding the sum down (R95). -/
theorem sum_floorShift_le (b : Build) (f : Nat → Int) (n : Nat) :
    ((Finset.range n).sum fun i => floorShift b (f i)) ≤ floorShift b ((Finset.range n).sum f) := by
  rw [le_floorShift_iff, Finset.sum_mul]
  exact Finset.sum_le_sum fun i _ => (le_floorShift_iff b _ _).1 le_rfl

theorem lt_floorShift_add_one_mul (b : Build) (z : Int) : z < (floorShift b z + 1) * 2 ^ b.fracBits := by
  rw [← not_le, ← le_floorShift_iff, not_le]
  exact lt_add_one _

/-- It loses less than one unit per term (R95). -/
theorem floorShift_sum_le (b : Build) (f : Nat → Int) {n : Nat} (hn : 0 < n) :
    floorShift b ((Finset.range n).sum f) ≤ ((Finset.range n).sum fun i => floorShift b (f i)) + ((n : Int) - 1) := by
  have hterms : (Finset.range n).sum f <
      ((Finset.range n).sum fun i => floorShift b (f i) + 1) * 2 ^ b.fracBits := by
    rw [Finset.sum_mul]
    exact Finset.sum_lt_sum_of_nonempty ⟨0, Finset.mem_range.2 hn⟩ fun i _ => lt_floorShift_add_one_mul b (f i)
  have hlt : floorShift b ((Finset.range n).sum f) < (Finset.range n).sum fun i => floorShift b (f i) + 1 := by
    rwa [← not_le, le_floorShift_iff, not_le]
  rw [Finset.sum_add_distrib, Finset.sum_const, Finset.card_range, nsmul_one] at hlt
  omega

/-- The three half units of R95 round to 1 together. -/
theorem floorShift_three_halves (b : Build) (z : Int) (hz : z = 3 * (1#32 <<< (b.fracBits - 1) : Word).toInt) :
    floorShift b z = 1 := by
  subst hz; cases b <;> decide

/-- Settles O36: no result wraps, so the results are the floors; the example is evaluated in either build. -/
theorem dotRoundsOnce : Obligations.DotRoundsOnce := by
  refine ⟨fun s n x h hlo hhi hterms => ?_, fun s x h helems => ?_⟩
  · have hm : ((Finset.range n.toNat).sum fun i =>
          (mulResult Config.build (elemAt s.pa.elems i) (elemAt s.pb.elems i)).toInt) =
        (Finset.range n.toNat).sum fun i => floorShift Config.build (s.pa.elemInt i * s.pb.elemInt i) :=
      Finset.sum_congr rfl fun i hi => toInt_mulResult_of_inRange (hterms i (Finset.mem_range.1 hi))
    refine ⟨_, fun i => mulResult Config.build (elemAt s.pa.elems i) (elemAt s.pb.elems i), exec_dot_of_ready x h,
      fun i _ => exec_mul_of_idle _ _ h.idle, ?_⟩
    rw [toInt_dotResult_of_inRange ⟨hlo, hhi⟩, hm]
    exact ⟨sum_floorShift_le _ _ _, floorShift_sum_le _ _ h.count_pos⟩
  · have hsum : dotSum s.pa s.pb 3 = 3 * (1#32 <<< (Config.build.fracBits - 1) : Word).toInt := by
      simp [dotSum_succ, dotSum_zero, Port.elemInt, helems]; ring
    have hdot : dotResult Config.build s 3#32 = 1#32 := by
      rw [dotResult, show (3#32).toNat = 3 from rfl, floorShift_three_halves _ _ hsum]; rfl
    have hhalf : ∀ b : Build, mulResult b (1#32 <<< (b.fracBits - 1)) 1#32 = 0#32 := fun b => by cases b <;> decide
    rw [exec_dot_of_ready x h, hdot, exec_mul_of_idle _ _ h.idle, hhalf]
    exact ⟨rfl, rfl⟩

/-! ## The order of the terms -/

/-- One permutation of the pairs leaves the sum as it is (R126). -/
theorem dotSum_of_perm {a b c d : Port} {n : Nat} (σ : Equiv.Perm (Fin n))
    (h : ∀ i : Fin n, elemAt c.elems i = elemAt a.elems (σ i) ∧ elemAt d.elems i = elemAt b.elems (σ i)) :
    dotSum c d n = dotSum a b n := by
  rw [dotSum, dotSum, Finset.sum_range, Finset.sum_range,
    ← Equiv.sum_comp σ fun i : Fin n => a.elemInt i * b.elemInt i]
  exact Finset.sum_congr rfl fun i _ => by simp only [Port.elemInt, h i]

/-- So does the exchange of the two sequences. -/
theorem dotSum_of_exchange {a b c d : Port} {n : Nat}
    (h : ∀ i, i < n → elemAt c.elems i = elemAt b.elems i ∧ elemAt d.elems i = elemAt a.elems i) :
    dotSum c d n = dotSum a b n :=
  Finset.sum_congr rfl fun i hi => by simp only [Port.elemInt, h i (Finset.mem_range.1 hi), mul_comm]

/-- Two states with the same sum give the same result. -/
theorem exec_dot_of_sum_eq {s t : State} {n : Word} (x : Word) (hs : s.ReadyForDot n) (ht : t.ReadyForDot n)
    (h : dotSum t.pa t.pb n.toNat = dotSum s.pa s.pb n.toNat) :
    ∃ r : Word, exec (.dot n x) s = .next ((s.withReads (readOrder n.toNat)).responded (.ok r)) ∧
      exec (.dot n x) t = .next ((t.withReads (readOrder n.toNat)).responded (.ok r)) := by
  refine ⟨_, exec_dot_of_ready x hs, ?_⟩
  rw [exec_dot_of_ready x ht, dotResult, h, ← dotResult]

/-- Settles O37: either change leaves the sum as it is. -/
theorem dotIgnoresTheOrderOfTerms : Obligations.DotIgnoresTheOrderOfTerms :=
  ⟨fun _ _ _ x σ hs ht h => exec_dot_of_sum_eq x hs ht (dotSum_of_perm σ h),
    fun _ _ _ x hs ht h => exec_dot_of_sum_eq x hs ht (dotSum_of_exchange h)⟩

/-! ## Sums that never leave 64 bits -/

/-- A sum inside the 64-bit range is kept in either reading of an overflow (R120, R128). -/
theorem wmacAt_of_inRange {s : State} {acc : Wide} {ua ub : Word} (p : Params) (hacc : s.acc = some acc)
    (hlo : -(2 : Int) ^ 63 ≤ acc.toInt + ua.toInt * ub.toInt)
    (hhi : acc.toInt + ua.toInt * ub.toInt ≤ 2 ^ 63 - 1) :
    wmacAt p ua ub s = .next (s.withAcc (acc + wideProduct ua ub)) := by
  have hkept : accumulated p.accOverflow acc (wideProduct ua ub) = some (acc + wideProduct ua ub) := by
    unfold accumulated
    rw [toInt_wideProduct, if_pos ⟨hlo, hhi⟩, ← toInt_add_wideProduct_of_inRange hlo hhi, BitVec.ofInt_toInt]
  rw [wmacAt, readAcc_eq _ hacc, hkept]

/-- What one `WMAC` takes from the room left: with the magnitudes of the sum, of the product and of all that
follows below `2^63`, the sum stays in range and leaves room for what follows (R85). -/
theorem magnitude_step {acc : Wide} {x y : Word} {rest : Int} (hrest : 0 ≤ rest)
    (h : |acc.toInt| + (rest + |x.toInt * y.toInt|) ≤ 2 ^ 63 - 1) :
    -(2 : Int) ^ 63 ≤ acc.toInt + x.toInt * y.toInt ∧ acc.toInt + x.toInt * y.toInt ≤ 2 ^ 63 - 1 ∧
      |(acc + wideProduct x y).toInt| + rest ≤ 2 ^ 63 - 1 := by
  have hadd := abs_add_le acc.toInt (x.toInt * y.toInt)
  obtain ⟨hlo, hhi⟩ := abs_le.1 (hadd.trans (by omega : _ ≤ (2 : Int) ^ 63 - 1))
  have hlo' : -(2 : Int) ^ 63 ≤ acc.toInt + x.toInt * y.toInt := by omega
  rw [toInt_add_wideProduct_of_inRange hlo' hhi]
  exact ⟨hlo', hhi, by omega⟩

/-- The absolute values of the products of the pairs 1 to `k`, which the loop adds. -/
def loopMagnitude (a b : Port) (k : Nat) : Int :=
  (Finset.Ico 1 (k + 1)).sum fun i => |a.elemInt i * b.elemInt i|

theorem loopMagnitude_nonneg (a b : Port) (k : Nat) : 0 ≤ loopMagnitude a b k :=
  Finset.sum_nonneg fun _ _ => abs_nonneg _

theorem loopMagnitude_succ (a b : Port) (k : Nat) :
    loopMagnitude a b (k + 1) = loopMagnitude a b k + |a.elemInt (k + 1) * b.elemInt (k + 1)| :=
  Finset.sum_Ico_succ_top (by omega) _

/-- The sum of R85 is pair 0 and the pairs of the loop. -/
theorem sum_abs_eq_first_add (a b : Port) {n : Nat} (hn : 0 < n) :
    ((Finset.range n).sum fun i => |a.elemInt i * b.elemInt i|) =
      |a.elemInt 0 * b.elemInt 0| + loopMagnitude a b (n - 1) := by
  rw [loopMagnitude, Nat.sub_add_cancel hn, Finset.range_eq_Ico, Finset.sum_eq_sum_Ico_succ_bot hn]

/-- Where the magnitudes add up to less than `2^63` the loop meets no overflow, so the reading of one does not
enter (R85). -/
theorem dotLoop_congr_params (p q : Params) {k : Nat} (hk : k < 2 ^ 32) {s : State} {acc : Wide}
    (hacc : s.acc = some acc) (ha : k < s.pa.len.toNat) (hb : k < s.pb.len.toNat)
    (hsum : |acc.toInt| + loopMagnitude s.pa s.pb k ≤ 2 ^ 63 - 1) : dotLoop p k s = dotLoop q k s := by
  induction k generalizing s acc with
  | zero => rfl
  | succ k ih =>
    have hi : (BitVec.ofNat 32 (k + 1)).toNat = k + 1 := Nat.mod_eq_of_lt hk
    have hpa : BitVec.ofNat 32 (k + 1) < s.pa.len := BitVec.lt_def.2 (hi.symm ▸ ha)
    have hpb : BitVec.ofNat 32 (k + 1) < s.pb.len := BitVec.lt_def.2 (hi.symm ▸ hb)
    rw [loopMagnitude_succ] at hsum
    obtain ⟨hlo, hhi, hnext⟩ := magnitude_step (loopMagnitude_nonneg s.pa s.pb k) hsum
    have hwmac (r : Params) := wmacAt_of_inRange r (s := (s.loggedPair (BitVec.ofNat 32 (k + 1))).withIdx
      (BitVec.ofNat 32 k)) hacc hlo hhi
    rw [dotLoop, dotLoop, withPair_eq _ hpa hpb, withPair_eq _ hpa hpb, hi, hwmac p, hwmac q, andThen_next,
      andThen_next]
    exact ih (Nat.lt_of_succ_lt hk) rfl (Nat.lt_of_succ_lt ha) (Nat.lt_of_succ_lt hb) hnext

/-- The same for the whole computation, of which the build is the only other argument (R85). -/
theorem dotRun_congr_params {p q : Params} (hbuild : q.build = p.build) {s : State} {n : Word} (hn : 0 < n.toNat)
    (ha : n.toNat ≤ s.pa.len.toNat) (hb : n.toNat ≤ s.pb.len.toNat)
    (hsum : ((Finset.range n.toNat).sum fun i => |s.pa.elemInt i * s.pb.elemInt i|) ≤ 2 ^ 63 - 1) :
    dotRun p n s = dotRun q n s := by
  have hlast : n.toNat - 1 < n.toNat := Nat.sub_lt hn one_pos
  have ha0 : 0#32 < s.pa.len := BitVec.lt_def.2 (hn.trans_le ha)
  have hb0 : 0#32 < s.pb.len := BitVec.lt_def.2 (hn.trans_le hb)
  have hnarrow : narrowRespond q = narrowRespond p := by funext t; rw [narrowRespond, narrowRespond, hbuild]
  rw [sum_abs_eq_first_add _ _ hn] at hsum
  rw [dotRun, dotRun, withPair_eq _ ha0 hb0, execWmul_eq, andThen_next, andThen_next, hnarrow,
    dotLoop_congr_params p q (hlast.trans n.isLt) (State.withAcc_acc _ _) (by exact hlast.trans_le ha)
      (by exact hlast.trans_le hb) (by rw [toInt_wideProduct]; exact hsum)]

/-- Settles O19: the two readings run the same loop, and with the wrapping adder its end is known. -/
theorem smallSumsNeverOverflow : Obligations.SmallSumsNeverOverflow := by
  intro p q s n x _ hq hbuild h hsum
  have hboth : dotAt q n x s = dotAt p n x s := by
    have ⟨_, _, hla, hlb, _⟩ := h
    rw [dotAt, dotAt, dotRun_congr_params hbuild (s := s.accepted 0b10#2 n x) h.count_pos (BitVec.le_def.1 hla)
      (BitVec.le_def.1 hlb) hsum]
  exact ⟨by rw [← hboth, ← hbuild]; exact dotAt_of_ready hq x h, hboth⟩

end Sys2Proof.Machine

/-! PROOFS. `NARROW` in numbers: the direction in which it rounds, and where it loses high bits (41_narrow.md R101,
R102). -/

namespace Sys2Proof.Machine

/-! ## The result as an integer -/

/-- `NARROW` on an `ACC` that holds a value (R100). -/
theorem exec_narrow_of_acc {s : State} {acc : Wide} (ua ub : Word) (h : s.acc = some acc) :
    exec (.narrow ua ub) s = .next (s.withRes (narrowed Config.build acc)) := narrowAt_eq Config.params h

theorem toInt_narrowed (b : Build) (acc : Wide) :
    (narrowed b acc).toInt = wrapTo 32 (floorShift b acc.toInt) := by
  rw [narrowed_eq_ofInt, wrapTo_eq_toInt]

/-- The result is the floor exactly in the range that does not wrap (R102). -/
theorem toInt_narrowed_eq_floorShift_iff (b : Build) (acc : Wide) :
    (narrowed b acc).toInt = floorShift b acc.toInt ↔
      -(2 : Int) ^ (31 + b.fracBits) ≤ acc.toInt ∧ acc.toInt < 2 ^ (31 + b.fracBits) := by
  rw [toInt_narrowed, wrapTo_floorShift_eq_iff]

/-! ## The rounding -/

/-- The floor is the one integer whose step of `2^F` holds the dividend. -/
theorem floorShift_eq_iff (b : Build) (z k : Int) :
    floorShift b z = k ↔ k * 2 ^ b.fracBits ≤ z ∧ z < (k + 1) * 2 ^ b.fracBits := by
  rw [← le_floorShift_iff, ← not_le, ← le_floorShift_iff]
  omega

/-- No remainder is lost exactly when the discarded bits are zero (R101). -/
theorem floorShift_mul_pow_eq_iff (b : Build) (z : Int) :
    floorShift b z * 2 ^ b.fracBits = z ↔ (2 : Int) ^ b.fracBits ∣ z := by
  refine ⟨Dvd.intro_left _, ?_⟩
  rintro ⟨k, rfl⟩
  rw [mul_comm _ k, floorShift_mul_pow]

theorem narrowed_eq_ofInt_of_step (b : Build) (acc : Wide) (k : Int) (hlo : k * 2 ^ b.fracBits ≤ acc.toInt)
    (hhi : acc.toInt < (k + 1) * 2 ^ b.fracBits) : narrowed b acc = BitVec.ofInt 32 k := by
  rw [narrowed_eq_ofInt, (floorShift_eq_iff b _ k).2 ⟨hlo, hhi⟩]

/-- Settles O11: where nothing wraps the result is the floor; -1 and 0 are the floors of the two steps around
zero. -/
theorem narrowRoundsTowardNegativeInfinity : Obligations.NarrowRoundsTowardNegativeInfinity := by
  intro s acc ua ub hacc
  refine ⟨_, exec_narrow_of_acc ua ub hacc, fun hlo hhi => ?_, fun hlo hhi => ?_, fun hlo hhi => ?_⟩
  · have hexact := floorShift_mul_pow_eq_iff Config.build acc.toInt
    obtain ⟨hle, hlt⟩ := (floorShift_eq_iff Config.build acc.toInt _).1 rfl
    rw [(toInt_narrowed_eq_floorShift_iff _ acc).2 ⟨hlo, hhi⟩]
    exact ⟨hexact.2, fun hrem => ⟨lt_of_le_of_ne hle (mt hexact.1 hrem), hlt⟩⟩
  · exact narrowed_eq_ofInt_of_step Config.build acc (-1) (by omega) (by omega)
  · exact narrowed_eq_ofInt_of_step Config.build acc 0 (by omega) (by omega)

/-! ## The high bits that are dropped -/

/-- Keeping the low `m + 1` bits and extending their sign gives the pattern back exactly when the bits above
`m` equal bit `m`. -/
theorem signExtend_signExtend_eq_self_iff {w m : Nat} (x : BitVec w) (hm : m < w) :
    (x.signExtend (m + 1)).signExtend w = x ↔ ∀ k, m + 1 ≤ k → k < w → x.getLsbD k = x.getLsbD m := by
  have hmsb : (x.signExtend (m + 1)).msb = x.getLsbD m := by
    simp [BitVec.msb_eq_getLsbD_last, BitVec.getElem_signExtend, hm]
  have hbit (k : Nat) (hk : k < w) : ((x.signExtend (m + 1)).signExtend w).getLsbD k =
      if k < m + 1 then x.getLsbD k else x.getLsbD m := by
    rw [BitVec.getLsbD_signExtend, hmsb, BitVec.getLsbD_signExtend]
    split <;> simp [*]
  refine ⟨fun h k hmk hk => ?_, fun h => BitVec.eq_of_getLsbD_eq fun k hk => ?_⟩
  · rw [← h, hbit k hk, hbit m hm, if_neg hmk.not_gt, if_pos m.lt_succ_self]
  · rw [hbit k hk]
    split
    · rfl
    · exact (h k (by omega) hk).symm

/-- In two's complement these are the patterns of the numbers of the range of `m + 1` bits. -/
theorem high_bits_eq_iff_toInt_inRange {w m : Nat} (x : BitVec w) (hm : m < w) :
    (∀ k, m + 1 ≤ k → k < w → x.getLsbD k = x.getLsbD m) ↔ -(2 : Int) ^ m ≤ x.toInt ∧ x.toInt < 2 ^ m := by
  have htoInt : ((x.signExtend (m + 1)).signExtend w).toInt = wrapTo (m + 1) x.toInt := by
    rw [BitVec.toInt_signExtend_of_le hm, BitVec.toInt_signExtend_eq_toInt_bmod_of_le _ hm, wrapTo]
  rw [← signExtend_signExtend_eq_self_iff x hm, ← BitVec.toInt_inj, htoInt, wrapTo_eq_self_iff]

/-- Wrapping changes a number by a multiple of `2^n` (R9). -/
theorem exists_wrapTo_eq_add (n : Nat) (z : Int) : ∃ k : Int, wrapTo n z = z + k * 2 ^ n := by
  obtain ⟨k, hk⟩ : ((2 ^ n : Nat) : Int) ∣ wrapTo n z - z := Int.dvd_bmod_sub_self
  exact ⟨k, by rw [eq_add_of_sub_eq' hk, mul_comm]; norm_cast⟩

/-- Settles O12: the high bits agree with bit `F + 31` exactly in the range that does not wrap. -/
theorem narrowWrapsSilently : Obligations.NarrowWrapsSilently := by
  refine ⟨fun s acc ua ub hacc => ?_, fun p s hbuild hacc => ?_⟩
  · have hrange := toInt_narrowed_eq_floorShift_iff Config.build acc
    have hF := fracBits_le Config.build
    refine ⟨_, exec_narrow_of_acc ua ub hacc, hrange.trans ?_, hrange, ?_⟩
    · rw [add_comm 31]
      exact (high_bits_eq_iff_toInt_inRange acc (by omega)).symm
    · rw [toInt_narrowed]
      exact exists_wrapTo_eq_add 32 _
  · have hexample : narrowed .f15 0x0000400000000000#64 = 0x80000000#32 := by decide
    rw [narrowAt_eq p hacc, hbuild, hexample]
    rfl

end Sys2Proof.Machine

/-! PROOFS. The widening multiply and the scalar multiply: what `WMUL` writes, the closed form of `MUL`, and the
small-step program that reaches it (42_mul.md R110, R111). -/

namespace Sys2Proof.Machine

/-! ## WMUL, and the bits of MUL -/

/-- Settles O14: `ACC` takes the wide product, which is the product of the integers and keeps to its range. -/
theorem wmulWritesTheExactProduct : Obligations.WmulWritesTheExactProduct := by
  intro s ua ub
  obtain ⟨hlo, hhi⟩ := product_bounds ua ub
  refine ⟨wideProduct ua ub, execWmul_eq ua ub s, toInt_wideProduct ua ub, ?_, ?_, ?_, wideProduct_eq_zero⟩
  · rwa [toInt_wideProduct]
  · rwa [toInt_wideProduct]
  · rw [wideProduct_comm]
    exact execWmul_eq ub ua s

/-- A 64-bit pattern that stands for the exact product is the one `WMUL` writes. -/
theorem eq_wideProduct_of_toInt {p : Wide} {a b : Word} (h : p.toInt = a.toInt * b.toInt) : p = wideProduct a b :=
  BitVec.eq_of_toInt_eq (h.trans (toInt_wideProduct a b).symm)

/-- Settles O20: the closed form is the narrowed product, and narrowing takes the bits `P[F+31:F]`. -/
theorem mulDeliversItsClosedForm : Obligations.MulDeliversItsClosedForm := by
  intro s a b hs
  refine ⟨exec_mul_of_idle a b hs, fun p hp => ?_⟩
  rw [eq_wideProduct_of_toInt hp, ← narrowed_eq_extractLsb', narrowed_wideProduct]

/-! ## The small-step program of MUL -/

/-- One turn of a run, with whatever moves the world has left. -/
theorem Turns.runSteps_turn {s u : State} (h : Turns s u) (k : Nat) (ms : List Move) :
    runSteps (k + 1) (s.withMoves (.turn :: ms)) = runSteps k (u.withMoves ms) := by
  rw [runSteps_succ, step_turn, h, andThen_next]

theorem accept_mul (a b : Word) (s : State) :
    accept (encode (.mul a b)) s = .next (s.accepted 0b01#2 a b) := by
  simp [accept, encode, op_pack, fieldA_pack, fieldB_pack]

/-- A `MUL` is running that has no result yet. -/
def State.InMul (s : State) : Prop := s.busy = true ∧ s.res = none ∧ s.opl = some 0b01#2

theorem turn_of_inMul {s : State} (p : Params) (h : s.InMul) : turn p s = mulTurn s := by
  obtain ⟨hb, hr, ho⟩ := h
  rw [turn, if_pos hb, commandTurn_of_mul p hr ho]

/-- Its first turn is the `WMUL` of the latched operands. -/
theorem State.InMul.turns_wmul {s : State} {a b : Word} (h : s.InMul) (hacc : s.acc = none) (hla : s.la = some a)
    (hlb : s.lb = some b) : Turns s (s.withAcc (wideProduct a b)) := by
  intro ms
  rw [turn_of_inMul (s := s.withMoves ms) _ h, mulTurn_wmul (s := s.withMoves ms) hacc hla hlb]
  exact execWmul_eq a b _

/-- Its second turn is the `NARROW` of what `ACC` then holds. -/
theorem State.InMul.turns_narrow {s : State} {acc : Wide} (h : s.InMul) (hacc : s.acc = some acc) :
    Turns s (s.withRes (narrowed Config.build acc)) := by
  intro ms
  rw [turn_of_inMul (s := s.withMoves ms) _ h, mulTurn_narrow (s := s.withMoves ms) hacc]
  exact narrowAt_eq Config.params hacc

/-- The three turns from acceptance on: `WMUL`, `NARROW`, and the response, which keeps neither register. -/
theorem State.InMul.runSteps_eq {s : State} {a b : Word} (h : s.InMul) (hacc : s.acc = none) (hla : s.la = some a)
    (hlb : s.lb = some b) (ms : List Move) :
    runSteps 3 (s.withMoves (.turn :: .turn :: .turn :: ms)) =
      .next ((s.responded (.ok (mulResult Config.build a b))).withMoves ms) := by
  have hwmul : Turns s (s.withAcc (wideProduct a b)) := h.turns_wmul hacc hla hlb
  have hnarrow : Turns (s.withAcc (wideProduct a b)) _ := State.InMul.turns_narrow h rfl
  rw [narrowed_wideProduct] at hnarrow
  have hrespond : Turns ((s.withAcc (wideProduct a b)).withRes (mulResult Config.build a b)) _ := turns_respond h.1 rfl
  rw [hwmul.runSteps_turn, hnarrow.runSteps_turn, hrespond.runSteps_turn]
  rfl

/-- An idle block accepts the `MUL` presented first. -/
theorem turns_accept_mul {s : State} (a b : Word) (ws : List OpWord) (hs : s.busy = false) :
    Turns (s.withRequests (encode (.mul a b) :: ws)) ((s.withRequests ws).accepted 0b01#2 a b) :=
  turns_accept hs rfl fun ms => accept_mul a b ((s.withRequests ws).withMoves ms)

/-- Settles O56: one turn accepts the `MUL`, and the three turns after it deliver the response of R111. -/
theorem smallStepsReachTheWholeMul : Obligations.SmallStepsReachTheWholeMul := by
  intro s a b ws ms hs
  have hrun := State.InMul.runSteps_eq (s := (s.withRequests ws).accepted 0b01#2 a b) ⟨rfl, rfl, rfl⟩ rfl rfl rfl ms
  have hexec := exec_mul_of_idle (s := (s.withRequests ws).withMoves ms) a b hs
  exact ((turns_accept_mul a b ws hs).runSteps_turn 3 _).trans (hrun.trans hexec.symm)

end Sys2Proof.Machine

/-! PROOFS. What `ACC` holds between the `WMUL` and the `NARROW` of a `DOT` (43_dot.md R125). -/

namespace Sys2Proof.Machine

/-! ## The partial sum -/

/-- Right after the `WMUL` the sum is the product of pair 0. -/
theorem partialSum_pred_count (a b : Port) {n : Nat} (hn : 0 < n) :
    partialSum a b n (n - 1) = a.elemInt 0 * b.elemInt 0 := by
  rw [partialSum, Nat.sub_add_cancel hn, Finset.Ico_self, Finset.sum_empty, add_zero]

/-- The `WMAC` of pair `i` adds its product. -/
theorem partialSum_pred (a b : Port) {n i : Nat} (hi : 0 < i) (hin : i < n) :
    partialSum a b n (i - 1) = partialSum a b n i + a.elemInt i * b.elemInt i := by
  rw [partialSum, partialSum, Nat.sub_add_cancel hi, Finset.sum_eq_sum_Ico_succ_bot hin,
    add_comm (a.elemInt i * b.elemInt i), add_assoc]

/-- Where `ACC` is the wrapped sum, it still is after one product more (R120). -/
theorem toInt_add_wideProduct_of_wrapTo {acc : Wide} {z : Int} (x y : Word) (h : acc.toInt = wrapTo 64 z) :
    (acc + wideProduct x y).toInt = wrapTo 64 (z + x.toInt * y.toInt) := by
  rw [toInt_add_wideProduct, h]
  exact Int.bmod_add_bmod

theorem toInt_wideProduct_eq_wrapTo (x y : Word) : (wideProduct x y).toInt = wrapTo 64 (x.toInt * y.toInt) := by
  rw [wideProduct_eq_ofInt, wrapTo_eq_toInt]

/-! ## The pair in work -/

/-- What has been read of a pair are the elements of index `i`. -/
def State.HoldsElemsOf (s : State) (i : Nat) : Prop :=
  (∀ v, s.x = some v → v = elemAt s.pa.elems i) ∧ (∀ v, s.y = some v → v = elemAt s.pb.elems i)

theorem PairRead.holdsElemsOf {s t : State} {i : Word} (h : PairRead s i t) (hs : s.HoldsElemsOf i.toNat) :
    t.HoldsElemsOf i.toNat := by
  obtain ⟨hx, hy⟩ := hs
  cases h with
  | waits => exact ⟨hx, hy⟩
  | readA => exact ⟨fun v hv => (Option.some.inj hv).symm, hy⟩
  | readB => exact ⟨hx, fun v hv => (Option.some.inj hv).symm⟩
  | readBoth => exact ⟨fun v hv => (Option.some.inj hv).symm, fun v hv => (Option.some.inj hv).symm⟩

/-! ## Every step keeps the sum -/

/-- Where no `DOT` runs there is no sum to speak of. -/
theorem State.AccHoldsSum.of_not_dot {s : State} (h : s.opl ≠ some 0b10#2) : s.AccHoldsSum :=
  fun _ ho => absurd ho h

theorem State.AccHoldsSum.pairRead {s t : State} {i : Word} (h : s.AccHoldsSum) (ht : PairRead s i t)
    (hi : (s.acc = none ∧ i = 0#32) ∨ (∃ acc, s.acc = some acc) ∧ s.idx = some i) : t.AccHoldsSum := by
  obtain ⟨x, y, ra, rb, rfl⟩ := ht.exists_eq
  intro n ho hc
  obtain ⟨hfirst, hnext⟩ := h n ho hc
  refine ⟨fun ha => ?_, fun acc j ha hj => ?_⟩
  · obtain ⟨-, rfl⟩ | ⟨⟨acc, ha'⟩, -⟩ := hi
    · exact ht.holdsElemsOf (hfirst ha)
    · cases ha.symm.trans ha'
  · obtain ⟨ha', -⟩ | ⟨-, hi⟩ := hi
    · cases ha.symm.trans ha'
    · cases hi.symm.trans hj
      obtain ⟨hsum, hpair⟩ := hnext acc i ha hi
      exact ⟨hsum, ht.holdsElemsOf hpair⟩

/-- A micro-operation gives up its pair, so the sum is all there is to show. -/
theorem accHoldsSum_consumedPair {s : State} {n i : Word} {v : Wide} (hc : s.cnt = some n)
    (hv : v.toInt = wrapTo 64 (partialSum s.pa s.pb n.toNat i.toNat)) :
    ((s.consumedPair i).withAcc v).AccHoldsSum := by
  intro m _ hm
  cases hc.symm.trans hm
  refine ⟨nofun, fun acc j hacc hj => ?_⟩
  cases hacc
  cases hj
  exact ⟨hv, nofun, nofun⟩

theorem toNat_sub_one {i : Word} (hi : i ≠ 0#32) : (i - 1#32).toNat = i.toNat - 1 := by bv_omega

/-- A turn of a running command: `WMUL` starts the sum, each `WMAC` adds the product of the pair in work. -/
theorem TurnResult.accHoldsSum {s t : State} (h : TurnResult s t) (hinv : s.Inv) (hs : s.busy = true)
    (hsum : s.AccHoldsSum) : t.AccHoldsSum := by
  cases h with
  | responds v hr => exact .of_not_dot nofun
  | rejects c hr ho h1 h2 => exact .of_not_dot nofun
  | narrows acc hr hacc ho => exact hsum
  | multiplies a b hr hacc ho hla hlb => exact .of_not_dot (by simp [ho])
  | startsSum n x y hr hacc ho hc hx hy =>
    obtain ⟨m, -, -, -, hm, hn0, -⟩ := dotRunning_of_inv hinv hs ho
    cases hc.symm.trans hm
    obtain ⟨hxa, hyb⟩ := (hsum n ho hc).1 hacc
    have hpos : 0 < n.toNat := BitVec.lt_def.1 ((BitVec.pos_iff_ne_zero n).2 hn0)
    refine accHoldsSum_consumedPair hc ?_
    rw [toNat_sub_one hn0, partialSum_pred_count _ _ hpos, toInt_wideProduct_eq_wrapTo, hxa x hx, hyb y hy]
    rfl
  | accumulates acc i x y hr hacc ho hi hi0 hx hy =>
    obtain ⟨n, hd⟩ := dotRunning_of_inv hinv hs ho
    obtain ⟨j, hj, hlt, -⟩ := hd.idx_of_acc hacc
    cases hi.symm.trans hj
    obtain ⟨-, -, -, hc, -⟩ := hd
    obtain ⟨hacc', hxa, hyb⟩ := (hsum n ho hc).2 acc i hacc hi
    have hpos : 0 < i.toNat := BitVec.lt_def.1 ((BitVec.pos_iff_ne_zero i).2 hi0)
    refine accHoldsSum_consumedPair hc ?_
    rw [toNat_sub_one hi0, partialSum_pred _ _ hpos (BitVec.lt_def.1 hlt),
      toInt_add_wideProduct_of_wrapTo x y hacc', hxa x hx, hyb y hy]
    rfl
  | readsFirst n _ hr hacc ho hc hp => exact hsum.pairRead hp (.inl ⟨hacc, rfl⟩)
  | readsNext acc i _ hr hacc ho hi hi0 hp => exact hsum.pairRead hp (.inr ⟨⟨acc, hacc⟩, hi⟩)

/-- An accepted `DOT` has neither a sum nor an element yet; any other request leaves no `DOT` running. -/
theorem TakenRequest.accHoldsSum {s t : State} (h : TakenRequest s t) : t.AccHoldsSum := by
  cases h with
  | answers order r => exact .of_not_dot nofun
  | startsMul a b => exact .of_not_dot (by simp)
  | startsDot n x hn =>
    exact fun _ _ _ => ⟨fun _ => ⟨nofun, nofun⟩, nofun⟩

/-- Everything one step can do keeps the sum, the two moves that change a sequence excluded. -/
theorem StepResult.accHoldsSum {m : Option Move} {u t : State} (h : StepResult m u t) (hinv : u.Inv)
    (hsum : u.AccHoldsSum) (hbind : ∀ q len elems, m ≠ some (.bind q len elems))
    (hstore : ∀ ws, m ≠ some (.store ws)) : t.AccHoldsSum := by
  cases h with
  | runs _ hb h => exact h.accHoldsSum hinv hb hsum
  | rests hb hr => exact hsum
  | accepts w ws _ hb hr h => exact (takenRequest_of_accept h).accHoldsSum
  | rejects w ws hb hr => exact .of_not_dot nofun
  | commands w ws i _ hb hr hd h => exact (takenRequest_of_exec (s := u.withRequests ws) hb hd h).accHoldsSum
  | presents w _ => exact hsum
  | binds q len elems hm => exact absurd hm (hbind q len elems)
  | stores ws hm => exact absurd hm (hstore ws)
  | answers q on _ => cases q <;> exact hsum
  | resets _ => exact .of_not_dot nofun

/-- Settles O54: the inversion lemma of a step, with the sum as the invariant. -/
theorem accAlwaysHoldsThePartialSum : Obligations.AccAlwaysHoldsThePartialSum :=
  fun _ _ hinv hsum hk h => (step_cases h).accHoldsSum hinv hsum hk.1.head_ne_bind hk.head_ne_store

end Sys2Proof.Machine

/-! PROOFS. `DOT` at its edges: sums that leave 64 bits, arguments that fail the check, and a port that does not
answer (43_dot.md R121, R128, R130). -/

namespace Sys2Proof.Machine

/-! ## Sums that leave 64 bits -/

/-- In the reading `ACC_OVERFLOW = fault` a sum outside the 64-bit range stops the `WMAC` (R128). -/
theorem wmacAt_of_outOfRange {p : Params} {s : State} {acc : Wide} {ua ub : Word} (hp : p.accOverflow = .fault)
    (hacc : s.acc = some acc)
    (h : ¬ (-(2 : Int) ^ 63 ≤ acc.toInt + ua.toInt * ub.toInt ∧ acc.toInt + ua.toInt * ub.toInt ≤ 2 ^ 63 - 1)) :
    wmacAt p ua ub s = .fault .accOverflow := by
  have hnone : accumulated p.accOverflow acc (wideProduct ua ub) = none := by
    unfold accumulated
    rw [toInt_wideProduct, if_neg h, hp]
  rw [wmacAt, readAcc_eq _ hacc, hnone]

/-- Settles O17: outside the range the one reading stops, inside it neither does more than add, and the machine
of `exec` is the other reading. -/
theorem overflowReadingsOfWmac : Obligations.OverflowReadingsOfWmac := by
  intro p q s acc ua ub hp hq hacc
  refine ⟨fun h => wmacAt_of_outOfRange hp hacc (by omega), fun hlo hhi => ?_, ?_⟩
  · rw [wmacAt_of_inRange p hacc hlo hhi, wmacAt_of_inRange q hacc hlo hhi]
  · rw [exec_wmac_of_acc ua ub hacc, wmacAt_wrap hq ua ub hacc]

/-- A `DOT` that passes its check on answering ports runs the computation of R122. -/
theorem dotAt_eq_dotRun {s : State} {n : Word} (p : Params) (x : Word) (h : s.ReadyForDot n) :
    dotAt p n x s = dotRun p n (s.accepted 0b10#2 n x) := by
  obtain ⟨hs, hn, hla, hlb, hpa, hpb⟩ := h
  rw [dotAt, hs, dotInvalid_eq_false.2 ⟨hn, hla, hlb⟩, hpa, hpb]
  rfl

/-- In that reading the loop stops at a first `WMAC` whose sum leaves the range (R128). -/
theorem dotLoop_succ_of_outOfRange {p : Params} {s : State} {k : Nat} {acc : Wide} (hp : p.accOverflow = .fault)
    (hk : k + 1 < 2 ^ 32) (hacc : s.acc = some acc) (ha : k + 1 < s.pa.len.toNat) (hb : k + 1 < s.pb.len.toNat)
    (h : ¬ (-(2 : Int) ^ 63 ≤ acc.toInt + s.pa.elemInt (k + 1) * s.pb.elemInt (k + 1) ∧
      acc.toInt + s.pa.elemInt (k + 1) * s.pb.elemInt (k + 1) ≤ 2 ^ 63 - 1)) :
    dotLoop p (k + 1) s = .fault .accOverflow := by
  have hi : (BitVec.ofNat 32 (k + 1)).toNat = k + 1 := Nat.mod_eq_of_lt hk
  rw [dotLoop, withPair_eq _ (BitVec.lt_def.2 (hi.symm ▸ ha)) (BitVec.lt_def.2 (hi.symm ▸ hb)), hi,
    wmacAt_of_outOfRange hp (by exact hacc) h, andThen_fault]

/-- There a `DOT` of two pairs whose sum leaves the range stops at its one `WMAC`. -/
theorem dotAt_two_of_outOfRange {p : Params} {s : State} (hp : p.accOverflow = .fault) (x : Word)
    (h : s.ReadyForDot 2#32)
    (hsum : ¬ (-(2 : Int) ^ 63 ≤ dotSum s.pa s.pb 2 ∧ dotSum s.pa s.pb 2 ≤ 2 ^ 63 - 1)) :
    dotAt p 2#32 x s = .fault .accOverflow := by
  have ⟨_, _, hla, hlb, _⟩ := h
  have ha0 : 0#32 < s.pa.len := Std.lt_of_lt_of_le (by decide) hla
  have hb0 : 0#32 < s.pb.len := Std.lt_of_lt_of_le (by decide) hlb
  rw [dotSum_succ, dotSum_one] at hsum
  rw [dotAt_eq_dotRun p x h, dotRun, withPair_eq _ (by exact ha0) (by exact hb0), execWmul_eq, andThen_next,
    show (2#32).toNat - 1 = 0 + 1 from rfl,
    dotLoop_succ_of_outOfRange hp (by decide) (State.withAcc_acc _ _) (by exact BitVec.le_def.1 hla)
      (by exact BitVec.le_def.1 hlb) (by rw [toInt_wideProduct]; exact hsum), andThen_fault]

/-- Settles O18: the two products are `2^62` each, and `2^63`, one past the range, narrows to 0 for either `F`. -/
theorem twoExtremePairsOverflow : Obligations.TwoExtremePairsOverflow := by
  intro s x h helems
  have hsum : dotSum s.pa s.pb 2 = 2 ^ 63 := by
    simp [dotSum_succ, dotSum_zero, Port.elemInt, helems]
  have hzero : ∀ b : Build, BitVec.ofInt 32 (wrapTo 32 (floorShift b (2 ^ 63))) = 0#32 := fun b => by
    cases b <;> decide
  have hresult : dotResult Config.build s 2#32 = 0#32 := by
    rw [dotResult, show (2#32).toNat = 2 from rfl, hsum, hzero]
  refine ⟨?_, ⟨_, exec_dot_of_ready x h, by rw [hresult]; rfl⟩, fun p hp => ?_⟩
  · have hacc : 0x4000000000000000#64 + wideProduct 0x80000000#32 0x80000000#32 = 0x8000000000000000#64 := by
      decide
    rw [exec_wmac_of_acc _ _ (State.withAcc_acc _ _), hacc]
    rfl
  · exact dotAt_two_of_outOfRange hp x h (by rw [hsum]; omega)

/-! ## Acceptance -/

/-- Settles O29: the check of R121 comes before anything else. -/
theorem dotChecksItsArgument : Obligations.DotChecksItsArgument :=
  fun _ _ x hs hn => ⟨dotAt_of_invalid Config.params x hs (dotInvalid_eq_true.2 hn), rfl⟩

/-- Settles O33: the state is the accepted one, which is inside the program of the `DOT`. -/
theorem dotWaitsForASilentPort : Obligations.DotWaitsForASilentPort := by
  intro s n x hs hn hla hlb hsilent
  have hans : (s.pa.answers && s.pb.answers) = false := Bool.and_eq_false_iff.2 hsilent
  exact ⟨_, dotAt_of_silent Config.params x hs (dotInvalid_eq_false.2 ⟨hn, hla, hlb⟩) hans,
    s.accepted_dotRunning x hn, rfl, rfl, rfl, rfl, rfl, rfl, rfl, rfl, rfl⟩

end Sys2Proof.Machine

/-! PROOFS. Every running command ends with one result (43_dot.md R130). -/

namespace Sys2Proof.Machine

/-! ## Runs that end in a result -/

/-- Undisturbed, the block comes from `s` to an idle state with one result more, in `k` steps or fewer. -/
def EndsInResult (k : Nat) (s : State) : Prop :=
  ∃ j ≤ k, ∃ t r, runSteps j (s.withMoves []) = .next t ∧ t.busy = false ∧ t.responses = s.responses ++ [.ok r]

theorem EndsInResult.mono {k l : Nat} {s : State} (h : EndsInResult k s) (hkl : k ≤ l) : EndsInResult l s := by
  obtain ⟨j, hj, hrun⟩ := h
  exact ⟨j, hj.trans hkl, hrun⟩

/-- A step of an undisturbed busy block is a turn of its command. -/
theorem Turns.step_eq {s u : State} (h : Turns s u) (hs : s.busy = true) :
    step (s.withMoves []) = .next (u.withMoves []) := by
  have hturn : turn Config.params (s.withMoves []) = commandTurn Config.params (s.withMoves []) := if_pos hs
  rw [step_of_busy (s := s.withMoves []) hs (.inl rfl), ← h [], hturn]
  rfl

/-- A turn that delivers nothing is one step on the way. -/
theorem Turns.endsInResult {s u : State} {k : Nat} (h : Turns s u) (hs : s.busy = true)
    (hresp : u.responses = s.responses) (hu : EndsInResult k u) : EndsInResult (k + 1) s := by
  obtain ⟨j, hj, t, r, hrun, ht, hr⟩ := hu
  refine ⟨j + 1, Nat.succ_le_succ hj, t, r, ?_, ht, hresp ▸ hr⟩
  rw [runSteps_succ, h.step_eq hs, andThen_next, hrun]

theorem endsInResult_of_res {s : State} {v : Word} (hs : s.busy = true) (hr : s.res = some v) :
    EndsInResult 1 s := by
  refine ⟨1, le_rfl, (s.responded (.ok v)).withMoves [], v, ?_, rfl, rfl⟩
  rw [runSteps_succ, (turns_respond hs hr).step_eq hs, andThen_next, runSteps_zero]

/-! ## DOT -/

/-- `u` differs from `s` in nothing but the pair in work and the two records of reads. -/
def State.SameButPair (s u : State) : Prop :=
  ∃ x y ra rb, u = { s with x := x, y := y, pa := { s.pa with reads := ra }, pb := { s.pb with reads := rb } }

/-- Whatever of the pair is there already, two turns suffice to have read it whole (R51). -/
theorem State.AtPair.endsInResult {s : State} {i : Word} {k : Nat} (h : s.AtPair i) (ha : i < s.pa.len)
    (hb : i < s.pb.len)
    (hk : ∀ u x y, s.SameButPair u → u.x = some x → u.y = some y → EndsInResult k u) :
    EndsInResult (k + 2) s := by
  have hs : s.busy = true := h.1.1
  cases hx : s.x with
  | some x =>
    cases hy : s.y with
    | some y => exact (hk s x y ⟨s.x, s.y, s.pa.reads, s.pb.reads, rfl⟩ hx hy).mono (Nat.le_add_right k 2)
    | none =>
      have hreadB := h.turns_read (q := .pb) ⟨hy, fun h' => nomatch hx.symm.trans h'⟩ hb
      exact (hreadB.endsInResult hs rfl (hk _ _ _ ⟨_, _, _, _, rfl⟩ hx rfl)).mono (Nat.le_succ _)
  | none =>
    cases hy : s.y with
    | some y =>
      have hreadA := h.turns_read (q := .pa) ⟨hx, fun h' => nomatch hy.symm.trans h'⟩ ha
      exact (hreadA.endsInResult hs rfl (hk _ _ _ ⟨_, _, _, _, rfl⟩ rfl hy)).mono (Nat.le_succ _)
    | none =>
      have hboth : EndsInResult k (s.afterPair i) := hk _ _ _ ⟨_, _, _, _, rfl⟩ rfl rfl
      cases hord : Config.pairOrder s.readCount with
      | aFirst =>
        have hfirst := h.turns_read (q := .pa) ⟨hx, fun _ => hord⟩ ha
        have hsecond : Turns (s.afterRead .pa i) (s.afterPair i) :=
          (h.latchElem .pa _).turns_read (q := .pb) ⟨hy, fun h' => nomatch h'⟩ hb
        exact hfirst.endsInResult hs rfl (hsecond.endsInResult hs rfl hboth)
      | bFirst =>
        have hfirst := h.turns_read (q := .pb) ⟨hy, fun _ => hord⟩ hb
        have hsecond : Turns (s.afterRead .pb i) (s.afterPair i) :=
          (h.latchElem .pb _).turns_read (q := .pa) ⟨hx, fun h' => nomatch h'⟩ ha
        exact hfirst.endsInResult hs rfl (hsecond.endsInResult hs rfl hboth)
      | together =>
        exact ((h.turns_readBoth hx hy ha hb hord).endsInResult hs rfl hboth).mono (Nat.le_succ _)

/-- From `IDX = i` there are three turns at most for each pair left, and two for the end. -/
theorem endsInResult_of_idx {s : State} {i : Word} {acc : Wide} (h : s.InDot) (ha : s.acc = some acc)
    (hi : s.idx = some i) (hla : i < s.pa.len) (hlb : i < s.pb.len) : EndsInResult (3 * i.toNat + 2) s := by
  generalize hm : i.toNat = m
  induction m generalizing s i acc with
  | zero =>
    obtain rfl : i = 0#32 := BitVec.eq_of_toNat_eq hm
    exact (turns_narrow h ha hi).endsInResult h.1 rfl (endsInResult_of_res h.1 rfl)
  | succ m ih =>
    have hi0 : i ≠ 0#32 := fun h0 => by simp [h0] at hm
    have hpred : i - 1#32 < i := sub_one_lt_self hi0
    have hpair : s.AtPair i := ⟨h, .inr ⟨⟨acc, ha⟩, hi, hi0⟩⟩
    refine State.AtPair.endsInResult (k := 3 * m + 3) hpair hla hlb ?_
    rintro _ x y ⟨_, _, _, _, rfl⟩ hx hy
    refine (turns_wmac (by exact h) (by exact ha) (by exact hi) hi0 hx hy).endsInResult h.1 rfl ?_
    exact ih (by exact h) rfl rfl (BitVec.lt_trans hpred hla) (BitVec.lt_trans hpred hlb)
      (by rw [toNat_sub_one hi0, hm]; rfl)

/-- Before the `WMUL` all `n` pairs are left. -/
theorem endsInResult_of_cnt {s : State} {n : Word} (h : s.InDot) (ha : s.acc = none) (hc : s.cnt = some n)
    (hn : n ≠ 0#32) (hla : n ≤ s.pa.len) (hlb : n ≤ s.pb.len) : EndsInResult (3 * n.toNat + 2) s := by
  have hpos : 0#32 < n := (BitVec.pos_iff_ne_zero n).2 hn
  have hlast : n - 1#32 < n := sub_one_lt_self hn
  have hpair : s.AtPair 0#32 := ⟨h, .inl ⟨ha, ⟨n, hc⟩, rfl⟩⟩
  have hend : EndsInResult (3 * (n - 1#32).toNat + 2 + 1 + 2) s := by
    refine hpair.endsInResult (Std.lt_of_lt_of_le hpos hla) (Std.lt_of_lt_of_le hpos hlb) ?_
    rintro _ x y ⟨_, _, _, _, rfl⟩ hx hy
    refine (turns_wmul (by exact h) (by exact ha) (by exact hc) hx hy).endsInResult h.1 rfl ?_
    exact endsInResult_of_idx (by exact h) rfl rfl (Std.lt_of_lt_of_le hlast hla) (Std.lt_of_lt_of_le hlast hlb)
  exact hend.mono (by bv_omega)

/-- A `DOT` within its sequences and with its reads answered ends from wherever it stands. -/
theorem State.DotRunning.endsInResult {s : State} {n : Word} (h : s.DotRunning n) (hb : s.InBounds)
    (hs : s.busy = true) (hpa : s.pa.answers = true) (hpb : s.pb.answers = true) :
    EndsInResult (3 * n.toNat + 2) s := by
  have ⟨ho, _, _, hc, hn, _⟩ := h
  obtain ⟨hla, hlb⟩ := hb n hc
  cases hr : s.res with
  | some v => exact (endsInResult_of_res hs hr).mono (by omega)
  | none =>
    have hdot : s.InDot := ⟨hs, hr, ho, hpa, hpb⟩
    cases ha : s.acc with
    | none => exact endsInResult_of_cnt hdot ha hc hn hla hlb
    | some acc =>
      obtain ⟨i, hi, hlt, -⟩ := h.idx_of_acc ha
      have hlt' := BitVec.lt_def.1 hlt
      exact (endsInResult_of_idx hdot ha hi (Std.lt_of_lt_of_le hlt hla) (Std.lt_of_lt_of_le hlt hlb)).mono
        (by omega)

/-! ## MUL -/

theorem State.InMul.endsInResult_of_acc {s : State} {acc : Wide} (h : s.InMul) (ha : s.acc = some acc) :
    EndsInResult 2 s :=
  (h.turns_narrow ha).endsInResult h.1 rfl (endsInResult_of_res h.1 rfl)

/-- A `MUL` ends from wherever it stands: `WMUL`, `NARROW` and the response are three turns (R111). -/
theorem State.MulRunning.endsInResult {s : State} (h : s.MulRunning) (hs : s.busy = true) : EndsInResult 3 s := by
  obtain ⟨ho, hla, hlb, -⟩ := h
  obtain ⟨a, hla⟩ := Option.isSome_iff_exists.1 hla
  obtain ⟨b, hlb⟩ := Option.isSome_iff_exists.1 hlb
  cases hr : s.res with
  | some v => exact (endsInResult_of_res hs hr).mono (by omega)
  | none =>
    have hmul : s.InMul := ⟨hs, hr, ho⟩
    cases ha : s.acc with
    | some acc => exact (hmul.endsInResult_of_acc ha).mono (by omega)
    | none =>
      exact (hmul.turns_wmul ha hla hlb).endsInResult hs rfl (State.InMul.endsInResult_of_acc (by exact hmul) rfl)

/-- Settles O57: a busy block that meets the invariant is somewhere inside one of its two programs. -/
theorem runningCommandsEnd : Obligations.RunningCommandsEnd := by
  intro s hinv hb hs hm hpa hpb
  have hself : s.withMoves [] = s := by rw [← hm, State.withMoves_moves_self]
  obtain ⟨-, -, -, hrun⟩ := hinv
  obtain hmul | ⟨n, hdot⟩ := hrun hs
  · obtain ⟨k, hk, t, r, hsteps, hidle, hresp⟩ := hmul.endsInResult hs
    obtain ⟨-, -, -, hc, -⟩ := hmul
    exact ⟨k, t, r, hself ▸ hsteps, hidle, hresp, fun _ => hk, fun n hn => nomatch hc.symm.trans hn⟩
  · obtain ⟨k, hk, t, r, hsteps, hidle, hresp⟩ := hdot.endsInResult hb hs hpa hpb
    obtain ⟨-, -, -, hc, -⟩ := hdot
    exact ⟨k, t, r, hself ▸ hsteps, hidle, hresp, fun hn => (nomatch hc.symm.trans hn),
      fun m hn => by cases hc.symm.trans hn; exact hk⟩

end Sys2Proof.Machine

/-! PROOFS. What neither a presented request nor a reset disturbs: the requests that wait at a busy block, and what is
the caller's when a command is abandoned (70_reset_and_hazards.md R161, R163). -/

namespace Sys2Proof.Machine

/-! ## Requests that wait -/

theorem step_present {s : State} {w : OpWord} {ms : List Move} (hm : s.moves = .present w :: ms) :
    step s = .next ((s.withMoves ms).present w) := by
  rw [step_eq_finish, fetchAt, hm]
  rfl

theorem PairRead.requests {s t : State} {i : Word} (h : PairRead s i t) : t.requests = s.requests := by
  obtain ⟨x, y, ra, rb, rfl⟩ := h.exists_eq
  rfl

/-- The sequencer looks at the waiting requests only where it accepts one. -/
theorem TurnResult.requests {s t : State} (h : TurnResult s t) : t.requests = s.requests := by
  cases h with
  | responds | rejects | narrows | multiplies | startsSum | accumulates => rfl
  | readsFirst n _ hr ha ho hc hp => exact hp.requests
  | readsNext acc i _ hr ha ho hi hi0 hp => exact hp.requests

/-- Settles O42: a busy block's answer to a command is to let it wait, and a step of the block is a turn of the running
command, none of which touches the requests. -/
theorem busyBlockLeavesRequestsWaiting : Obligations.BusyBlockLeavesRequestsWaiting := by
  refine ⟨fun s a b hs => ?_, fun s w ms hm => step_present hm, fun s t _ hs hm h => ?_⟩
  · exact ⟨mulAt_of_busy Config.params a b hs, dotAt_of_busy Config.params a b hs⟩
  · rw [step_of_busy hs hm] at h
    exact (commandTurn_cases h).requests

/-! ## Reset -/

theorem step_reset {s : State} {ms : List Move} (hm : s.moves = .reset :: ms) :
    step s = .next (s.withMoves ms).idle := by
  rw [step_eq_finish, fetchAt, hm]
  rfl

/-- Settles O49: reset makes the block idle as `State.idle` gives it, and replaces none of what is the caller's. -/
theorem resetAbandonsTheCommand : Obligations.ResetAbandonsTheCommand :=
  fun s ms hm => ⟨(s.withMoves ms).idle, step_reset hm, rfl, State.idle_holdsNothing _, rfl, rfl, rfl, rfl, rfl⟩

end Sys2Proof.Machine
